-- ==== Sys2Proof/Word.lean ====
section
/-! DEFINITION. The machine's words: bytes of MEM, 32-bit registers, 4-bit sample cells (00_scope.md R6 to R8). -/

namespace Sys2Proof

/-- A byte of MEM or of a packed buffer (R8). -/
abbrev Byte := BitVec 8

/-- A register, a command word or a palette entry: XLEN = PALW = 32 (R6). -/
abbrev Word := BitVec 32

/-- A sample cell of a raster bank: 4 bits in both variants (10_state.md R39). -/
abbrev Sample := BitVec 4

end Sys2Proof
end

