-- ==== Sys2Proof/Config.lean ====
section
/-! DEFINITION. What an implementation fixes (00_scope.md R6, 93_implementation_defined.md P1 to P4), the
document's constants, and the free value of MEM. -/

namespace Sys2Proof

/-- LZ_TIE, 44_lzss.md R196: which of several longest candidates is kept. -/
inductive LzTie where
  | farthest
  | nearest
  deriving DecidableEq, Repr

/-- The open parameters of one machine (R6). NBANKS is the length of `State.banks`. DESIGN CHOICE (log 1): the
state carries this record and no step changes it, so a statement about every state is about every machine. -/
structure Config where
  bankTiles : Nat
  memSize : Nat
  lzTie : LzTie
  deriving DecidableEq, Repr

/-- The ranges R6 allows. -/
abbrev Config.Legal (c : Config) : Prop := 1 ≤ c.bankTiles ∧ 1 ≤ c.memSize ∧ c.memSize ≤ 2 ^ 32

/-- The values of 92_eei_decisions.md, "Open parameters, in one place". -/
def Config.standard : Config := { bankTiles := 4096, memSize := 0x10000, lzTie := .farthest }

/-- NBANKS of the reset state: the default of R6. -/
def Config.standardBanks : Nat := 4

/-- FREE VALUE (log 4, log 5): the byte at an address that nothing has written since the reset input was last
asserted, by the number of assertions and the address. 70_reset_and_hazards.md R262: "a model must treat every
byte as an arbitrary value until the host has written it". -/
opaque Config.powerOnByte : Nat → Nat → Byte

/-- PALPAD (R6). -/
def Config.palPad : Word := 0

/-- LZ_WINDOW (R6). -/
def Config.lzWindow : Nat := 4096

/-- LZ_MINMATCH (R6). -/
def Config.lzMinMatch : Nat := 3

end Sys2Proof
end

