-- ==== Sys2Proof/Syntax.lean ====
section
/-! DEFINITION. The sixteen commands (30_encoding.md R86), one constructor per row of spec/opcode_table.json. -/

namespace Sys2Proof

/-- The variant tag V (00_scope.md R12): 0 = Packed4bpp, 1 = Planar2bpp. -/
inductive Variant where
  | packed4bpp
  | planar2bpp
  deriving DecidableEq, Repr

/-- The traversal-order flag C, the document's `columnMode` (R12): 0 = row-major, 1 = column-major. -/
inductive Traversal where
  | rowMajor
  | colMajor
  deriving DecidableEq, Repr

/-- A command. `sb` and `db` are the bank numbers of Format T (R81); a number at or above NBANKS is a legal
encoding that ends in E_BANK (R88). -/
inductive Instr where
  | tdecP4 (db : Nat) (c : Traversal)
  | tdecP2 (db : Nat) (c : Traversal)
  | tenc (sb : Nat)
  | tnewP4 (db : Nat) (c : Traversal)
  | tnewP2 (db : Nat) (c : Traversal)
  | txrng (sb db : Nat)
  | txrct (sb db : Nat)
  | txfrm (sb db : Nat)
  | tbpl1 (sb : Nat)
  | tbpl2 (sb : Nat)
  | tpxg (sb : Nat)
  | tpxgB1 (sb : Nat)
  | tpxgB2 (sb : Nat)
  | tpxs (db : Nat)
  | lzcA
  | lzcB
  deriving DecidableEq, Repr

end Sys2Proof
end

