-- ==== Sys2Proof/WellFormed.lean ====
section
/-! DEFINITION. Which commands have a command word: the bank fields are 4 bits wide (30_encoding.md R81, R84). -/

namespace Sys2Proof

/-- A bank number that fits the 4-bit field SB or DB. -/
abbrev bankFits (b : Nat) : Prop := b < 16

/-- Every bank field fits. -/
def Instr.wf : Instr → Bool
  | .tdecP4 db _ => bankFits db
  | .tdecP2 db _ => bankFits db
  | .tenc sb => bankFits sb
  | .tnewP4 db _ => bankFits db
  | .tnewP2 db _ => bankFits db
  | .txrng sb db => bankFits sb ∧ bankFits db
  | .txrct sb db => bankFits sb ∧ bankFits db
  | .txfrm sb db => bankFits sb ∧ bankFits db
  | .tbpl1 sb => bankFits sb
  | .tbpl2 sb => bankFits sb
  | .tpxg sb => bankFits sb
  | .tpxgB1 sb => bankFits sb
  | .tpxgB2 sb => bankFits sb
  | .tpxs db => bankFits db
  | .lzcA => true
  | .lzcB => true

end Sys2Proof
end

