-- ==== Sys2Proof/Decode.lean ====
section
/-! DEFINITION. The decoder, total on 32-bit words, and the encoder, both from 30_encoding.md R81 to R89. -/

namespace Sys2Proof

/-- Why a word is illegal (R87). Both end in E_ILLEGAL. -/
inductive Illegal where
  /-- no row of R86 has this OP -/
  | unassignedOpcode
  /-- the OP is assigned, and a must-be-zero bit, an unused field or a selector has a value no row allows -/
  | fixedField
  deriving DecidableEq, Repr

/-- `v[hi:lo]` with `n = hi - lo + 1`, as a natural (00_scope.md R7, R84). -/
def field (w : Word) (lo n : Nat) : Nat := (w.extractLsb' lo n).toNat

/-- SB = w[11:8] (R83). -/
def fieldSB (w : Word) : Nat := field w 8 4

/-- DB = w[15:12] (R83). -/
def fieldDB (w : Word) : Nat := field w 12 4

/-- C = w[17] (R83). -/
def fieldC (w : Word) : Traversal := if field w 17 1 = 1 then .colMajor else .rowMajor

/-- A row of the opcode map: `w` selects it when `w & mask == pattern` (R86). -/
structure OpRow where
  pattern : Word
  mask : Word
  build : Word → Instr

/-- The sixteen rows of R86, in the table's order. -/
def opRows : List OpRow :=
  [ ⟨0x00000001, 0xFFFD0FFF, fun w => .tdecP4 (fieldDB w) (fieldC w)⟩,
    ⟨0x00010001, 0xFFFD0FFF, fun w => .tdecP2 (fieldDB w) (fieldC w)⟩,
    ⟨0x00000002, 0xFFFFF0FF, fun w => .tenc (fieldSB w)⟩,
    ⟨0x00000003, 0xFFFD0FFF, fun w => .tnewP4 (fieldDB w) (fieldC w)⟩,
    ⟨0x00010003, 0xFFFD0FFF, fun w => .tnewP2 (fieldDB w) (fieldC w)⟩,
    ⟨0x00000004, 0xFFFF00FF, fun w => .txrng (fieldSB w) (fieldDB w)⟩,
    ⟨0x00000005, 0xFFFF00FF, fun w => .txrct (fieldSB w) (fieldDB w)⟩,
    ⟨0x00000006, 0xFFFF00FF, fun w => .txfrm (fieldSB w) (fieldDB w)⟩,
    ⟨0x00040007, 0xFFFFF0FF, fun w => .tbpl1 (fieldSB w)⟩,
    ⟨0x00080007, 0xFFFFF0FF, fun w => .tbpl2 (fieldSB w)⟩,
    ⟨0x00000008, 0xFFFFF0FF, fun w => .tpxg (fieldSB w)⟩,
    ⟨0x00040008, 0xFFFFF0FF, fun w => .tpxgB1 (fieldSB w)⟩,
    ⟨0x00080008, 0xFFFFF0FF, fun w => .tpxgB2 (fieldSB w)⟩,
    ⟨0x00000009, 0xFFFF0FFF, fun w => .tpxs (fieldDB w)⟩,
    ⟨0x00100010, 0xFFFFFFFF, fun _ => .lzcA⟩,
    ⟨0x00110010, 0xFFFFFFFF, fun _ => .lzcB⟩ ]

/-- `w & mask == match` (R86). -/
def OpRow.selects (r : OpRow) (w : Word) : Bool := w &&& r.mask == r.pattern

/-- The opcode OP = w[7:0] is assigned to some row. -/
def opAssigned (w : Word) : Bool := opRows.any fun r => field r.pattern 0 8 == field w 0 8

/-- Decode a command word: exactly one of the sixteen forms, or illegal (R86, R87). -/
def decode (w : Word) : Except Illegal Instr :=
  match opRows.find? fun r => r.selects w with
  | some r => .ok (r.build w)
  | none => .error (if opAssigned w then .fixedField else .unassignedOpcode)

/-- `OP | SB << 8 | DB << 12 | V << 16 | C << 17 | PL << 18` (R89). -/
def formatT (op sb db v c pl : Nat) : Word :=
  BitVec.ofNat 32 op ||| BitVec.ofNat 32 sb <<< 8 ||| BitVec.ofNat 32 db <<< 12 ||| BitVec.ofNat 32 v <<< 16
    ||| BitVec.ofNat 32 c <<< 17 ||| BitVec.ofNat 32 pl <<< 18

/-- `OP | TAG << 16` (R89). -/
def formatL (op tag : Nat) : Word := BitVec.ofNat 32 op ||| BitVec.ofNat 32 tag <<< 16

/-- The bit of C (R89: `row` is 0, `col` is 1). -/
def Traversal.bit : Traversal → Nat
  | .rowMajor => 0
  | .colMajor => 1

/-- The command word of a well-formed command (R81, R82, R85, R86, R89). -/
def encode : Instr → Word
  | .tdecP4 db c => formatT 0x01 0 db 0 c.bit 0
  | .tdecP2 db c => formatT 0x01 0 db 1 c.bit 0
  | .tenc sb => formatT 0x02 sb 0 0 0 0
  | .tnewP4 db c => formatT 0x03 0 db 0 c.bit 0
  | .tnewP2 db c => formatT 0x03 0 db 1 c.bit 0
  | .txrng sb db => formatT 0x04 sb db 0 0 0
  | .txrct sb db => formatT 0x05 sb db 0 0 0
  | .txfrm sb db => formatT 0x06 sb db 0 0 0
  | .tbpl1 sb => formatT 0x07 sb 0 0 0 1
  | .tbpl2 sb => formatT 0x07 sb 0 0 0 2
  | .tpxg sb => formatT 0x08 sb 0 0 0 0
  | .tpxgB1 sb => formatT 0x08 sb 0 0 0 1
  | .tpxgB2 sb => formatT 0x08 sb 0 0 0 2
  | .tpxs db => formatT 0x09 0 db 0 0 0
  | .lzcA => formatL 0x10 0x10
  | .lzcB => formatL 0x10 0x11

/-- The command word that the host lays out from `nbits` bits of a table row: bits at or above `nbits` are 0. -/
def tableWord (nbits w : Nat) : Word := BitVec.ofNat 32 (w % 2 ^ nbits)

/-- What the decoder reads from a table word (a command is one 32-bit word, R80). -/
def decodeTableWord (nbits w : Nat) : Option Instr := (decode (tableWord nbits w)).toOption

end Sys2Proof
end

