-- ==== Sys2Proof/Machine/State.lean ====
section
/-! DEFINITION. The state of the machine: the register file, the raster banks, MEM (10_state.md), and the host's
pending actions. Plain data. -/

namespace Sys2Proof.Machine

/-- The error codes of 60_exceptions.md R220; `none` is code 0. Codes 11 to 255 are never produced (log 21). -/
inductive ErrCode where
  | none
  | illegal
  | palette
  | frameUnconf
  | frameDivide
  | bank
  | variant
  | range
  | capacity
  | bus
  | overflow
  deriving DecidableEq, Repr

/-- The raster held by a valid bank (10_state.md R39). A cached plane is `some` exactly when its flag BPV is 1
(R29). -/
structure Raster where
  /-- V -/
  variant : Variant
  /-- C -/
  order : Traversal
  /-- WT, width in tiles -/
  wt : Word
  /-- HT, height in tiles -/
  ht : Word
  /-- PAL: 16 entries when V = 0, 4 when V = 1 (R42) -/
  pal : List Word
  /-- S: the samples, row by row from the top, each row from the left (R43) -/
  samples : List Sample
  /-- BPV1 and BP1, cells in the order of `samples` -/
  bp1 : Option (List (BitVec 1))
  /-- BPV2 and BP2 -/
  bp2 : Option (List (BitVec 1))
  deriving DecidableEq, Repr

/-- The bytes of MEM that have been written since the last reset, by rising address (log 4). -/
abbrev Memory := List Host.Cell

/-- The register at a word of the register space (10_state.md R20). -/
inductive Reg where
  | ctrl | status | cmd | result
  | srcAddr | srcLen | dstAddr | dstCap | dstLen
  | arg0 | arg1 | arg2 | arg3
  | frameW | frameH
  | errInfo0 | errInfo1
  | palInSize
  | bankSel | bankDesc | bankWt | bankHt
  | reserved
  | palIn (i : Fin 16)
  | bankPal (i : Fin 16)
  deriving DecidableEq, Repr

/-- What the host may do between commands (70_reset_and_hazards.md R272, R260; host-script syntax 30_encoding.md
R89). A command is `writeReg` at CMD's offset. -/
inductive HostAction where
  /-- WR: write the 32-bit register at a byte offset of the register space -/
  | writeReg (offset : Nat) (value : Word)
  /-- RD: read the register at a byte offset -/
  | readReg (offset : Nat)
  /-- WRM: write bytes to MEM at an address upward -/
  | writeMem (addr : Word) (bytes : List Byte)
  /-- RDM: read n bytes of MEM -/
  | readMem (addr : Word) (n : Nat)
  /-- assert and release the reset input (R260). DESIGN CHOICE (log 23): one action, so no host access falls while the
  input is held asserted; the spec gives only the state then -/
  | reset
  deriving DecidableEq, Repr

/-- The whole machine. -/
structure State where
  /-- the open parameters; no step changes them (log 1) -/
  cfg : Config
  /-- CTRL.IE (R30) -/
  ie : Bool
  /-- STATUS.BUSY (R28, R31) -/
  busy : Bool
  /-- STATUS.DONE -/
  done : Bool
  /-- STATUS.ERR -/
  err : Bool
  /-- STATUS.ERRCODE -/
  errCode : ErrCode
  /-- CMD (R32) -/
  cmd : Word
  /-- RESULT (R25) -/
  result : Word
  /-- SRC_ADDR (R21) -/
  srcAddr : Word
  /-- SRC_LEN (R21) -/
  srcLen : Word
  /-- DST_ADDR (R22) -/
  dstAddr : Word
  /-- DST_CAP (R22) -/
  dstCap : Word
  /-- DST_LEN (R23) -/
  dstLen : Word
  /-- ARG0 to ARG3 (R24) -/
  arg0 : Word
  arg1 : Word
  arg2 : Word
  arg3 : Word
  /-- FRAME_W, FRAME_H (R33) -/
  frameW : Word
  frameH : Word
  /-- ERR_INFO0, ERR_INFO1 (R34) -/
  errInfo0 : Word
  errInfo1 : Word
  /-- PAL_IN_SIZE and PAL_IN[0..15] (R35) -/
  palInSize : Word
  palIn : Vector Word 16
  /-- BANK_SEL[3:0] (R36) -/
  bankSel : BitVec 4
  /-- BANK[0..NBANKS-1], `none` when VALID = 0 (R39, R46; log 6) -/
  banks : List (Option Raster)
  /-- the bytes of MEM written since the last reset (R47, R262; log 4) -/
  mem : Memory
  /-- the MODEL's own: how often the reset input was asserted, the index of the free contents of MEM (log 5) -/
  epoch : Nat
  /-- the MODEL's own: the host's pending actions, oldest first (log 2) -/
  host : List HostAction
  /-- the MODEL's own: what the host's last register read returned (log 3) -/
  regData : Word
  /-- the MODEL's own: what the host's last MEM read returned (log 3) -/
  memData : List Byte
  deriving DecidableEq, Repr

/-- Why the machine stops with a fault. Raised by the host port only; no command faults. -/
inductive Fault where
  /-- Raised by a host read or write of MEM that reaches an address at or above MEM_SIZE, which does not exist
  (20_memory.md R60). Safe: the model stops where the platform might go on (log 10). -/
  | hostMemOutOfRange
  deriving DecidableEq, Repr

/-- Why the machine gives an action no meaning. -/
inductive Refusal where
  /-- An instruction of the opcode table without a meaning, by its mnemonic. Safe: the model stops. -/
  | notModelled (mnemonic : String)
  /-- Raised by a host register access at an offset that is not a multiple of 4 or is beyond 0xFC: "outside this
  spec (the model refuses it)" (20_memory.md R63, U8). Safe: the model stops (log 9). -/
  | registerOffset
  /-- Raised by a host access other than STATUS, a CMD write or a reset while BUSY = 1, whose outcome the spec does
  not define (70_reset_and_hazards.md R270, R272, U1). Safe: the model stops, and no step reaches BUSY = 1 (log 7). -/
  | hostAccessWhileBusy
  deriving DecidableEq, Repr

/-- The machine right after reset (10_state.md R51, 70_reset_and_hazards.md R260), with the default parameters. -/
def State.reset : State where
  cfg := Config.standard
  ie := false
  busy := false
  done := false
  err := false
  errCode := .none
  cmd := 0
  result := 0
  srcAddr := 0
  srcLen := 0
  dstAddr := 0
  dstCap := 0
  dstLen := 0
  arg0 := 0
  arg1 := 0
  arg2 := 0
  arg3 := 0
  frameW := 0
  frameH := 0
  errInfo0 := 0
  errInfo1 := 0
  palInSize := 0
  palIn := Vector.replicate 16 0
  bankSel := 0
  banks := List.replicate Config.standardBanks none
  mem := []
  epoch := 0
  host := []
  regData := 0
  memData := []

end Sys2Proof.Machine
end

