-- ==== Sys2Proof/Machine/Ops.lean ====
section
/-! DEFINITION. The named operations on MEM, the banks and the status: reading and writing bytes, accepting a command,
taking an error, completing, resetting. -/

namespace Sys2Proof.Machine

/-- The outcome of a step of this machine. -/
abbrev Result := Host.Outcome State Fault Refusal

/-! ### MEM (20_memory.md R60) -/

/-- The byte written last at an address, if any was since the last reset. An unlisted address holds no written
byte: that is what it reads as at this level, and `State.memByte` turns it into the free value (log 4). -/
def Memory.written : Memory → Nat → Option Byte
  | [], _ => none
  | (k, v) :: rest, a => if k = a then some v else Memory.written rest a

/-- Write one byte, keeping the addresses rising. -/
def Memory.store : Memory → Nat → Byte → Memory
  | [], a, v => [(a, v)]
  | (k, w) :: rest, a, v =>
    if a < k then (a, v) :: (k, w) :: rest
    else if a = k then (a, v) :: rest
    else (k, w) :: Memory.store rest a v

/-- Write a list of bytes, lowest address first (00_scope.md R9 `MemWrite`). -/
def Memory.storeAll (m : Memory) (a : Nat) : List Byte → Memory
  | [] => m
  | b :: bs => Memory.storeAll (m.store a b) (a + 1) bs

/-- The canonical form: addresses strictly rising. No entry can equal what an unlisted address reads as, since
that is no written byte. -/
abbrev Memory.wf (m : Memory) : Prop := (m.map Prod.fst).Pairwise (· < ·)

/-- `MemRead(a, 1)`: the written byte, else the free value of R262. -/
def State.memByte (s : State) (a : Nat) : Byte := (s.mem.written a).getD (Config.powerOnByte s.epoch a)

/-- `MemRead(a, n)`: the bytes at `a` to `a + n - 1`, lowest address first (00_scope.md R9). -/
def State.memRead (s : State) (a n : Nat) : List Byte := (List.range n).map fun i => s.memByte (a + i)

/-- `MemWrite(a, len(bs), bs)` (00_scope.md R9). -/
def State.memWrite (s : State) (a : Nat) (bs : List Byte) : State := { s with mem := s.mem.storeAll a bs }

/-- The range `[a, a + n)` is in MEM (20_memory.md R72): no wrap-around, an empty range at `a = MEM_SIZE` is in. -/
abbrev State.inMem (s : State) (a n : Nat) : Prop := a + n ≤ s.cfg.memSize

/-- Byte `i` of a value, bits `8i+7:8i` (20_memory.md R62). -/
def leByte (v i : Nat) : Byte := BitVec.ofNat 8 (v >>> (8 * i))

/-- The bytes of a `k`-byte host access, little-endian (R62). -/
def leBytes (k v : Nat) : List Byte := (List.range k).map (leByte v)

/-- The value of bytes read by a wide host access, little-endian (R62). -/
def leValue : List Byte → Nat
  | [] => 0
  | b :: bs => b.toNat + 256 * leValue bs

/-! ### Banks (10_state.md R39, R46) -/

/-- NBANKS: the number of banks the machine has. -/
def State.nbanks (s : State) : Nat := s.banks.length

/-- The raster of bank `b`, `none` when the bank is not valid or does not exist. -/
def State.raster (s : State) (b : Nat) : Option Raster := s.banks.getD b none

/-- Build bank `b`: VALID <- 1 and every part set (R46). -/
def State.setRaster (s : State) (b : Nat) (r : Raster) : State := { s with banks := s.banks.set b (some r) }

/-! ### Acceptance, error entry, completion -/

/-- A command is accepted: CMD holds the word, BUSY is set, DONE, ERR, ERRCODE and both information words are
cleared (10_state.md R28, R32). -/
def accept (w : Word) (s : State) : State :=
  { s with cmd := w, busy := true, done := false, err := false, errCode := .none, errInfo0 := 0, errInfo1 := 0 }

/-- A value in a 32-bit information word, saturated (60_exceptions.md R220, R230). -/
def saturate (n : Nat) : Word := BitVec.ofNat 32 (min n 0xFFFFFFFF)

/-- Taking an error, `raise E(i0, i1)`, in full (60_exceptions.md R230): nothing else is written. -/
def raiseError (e : ErrCode) (i0 i1 : Nat) (s : State) : State :=
  { s with errCode := e, errInfo0 := saturate i0, errInfo1 := saturate i1, err := true, done := false, busy := false }

/-- Completion without error, `done` (60_exceptions.md R231). There is no return instruction (R235): the block is
idle after either end. -/
def complete (s : State) : State := { s with done := true, err := false, busy := false }

/-- The command ends in an error. -/
def fail (e : ErrCode) (i0 i1 : Nat) (s : State) : Result := .next (raiseError e i0 i1 s)

/-- The command ends without error. -/
def finish (s : State) : Result := .next (complete s)

/-! ### Reset -/

/-- Soft reset (70_reset_and_hazards.md R263): every register 0, every bank invalid, MEM kept. The configuration and
what belongs to the host are not the block's to reset. -/
def softReset (s : State) : State :=
  { State.reset with
    cfg := s.cfg, banks := s.banks.map fun _ => none, mem := s.mem, epoch := s.epoch
    host := s.host, regData := s.regData, memData := s.memData }

/-- The reset input (R260): as a soft reset, and every byte of MEM is unspecified after it (R262, log 5). -/
def hardReset (s : State) : State := { softReset s with mem := [], epoch := s.epoch + 1 }

end Sys2Proof.Machine
end

