-- ==== Sys2Proof/Machine/Flags.lean ====
section
/-! DEFINITION. The flags: the STATUS and CTRL words, write-one-to-clear, the interrupt line, and the bank flags VALID,
BPV1, BPV2 (10_state.md R27 to R31, R36, 60_exceptions.md R220, R233). -/

namespace Sys2Proof.Machine

/-- The number of an error code (60_exceptions.md R220). -/
def ErrCode.number : ErrCode → Nat
  | .none => 0
  | .illegal => 1
  | .palette => 2
  | .frameUnconf => 3
  | .frameDivide => 4
  | .bank => 5
  | .variant => 6
  | .range => 7
  | .capacity => 8
  | .bus => 9
  | .overflow => 10

/-- A flag in bit position `k` of a register word. -/
def flagBit (b : Bool) (k : Nat) : Word := if b then (1 : Word) <<< k else 0

/-- STATUS as the host reads it (R31): BUSY bit 0, DONE bit 1, ERR bit 2, ERRCODE bits 15:8, the rest 0. -/
def State.statusWord (s : State) : Word :=
  flagBit s.busy 0 ||| flagBit s.done 1 ||| flagBit s.err 2 ||| BitVec.ofNat 32 s.errCode.number <<< 8

/-- CTRL as the host reads it (R30): IE in bit 0; SRST and the reserved bits read 0. -/
def State.ctrlWord (s : State) : Word := flagBit s.ie 0

/-- A host write to STATUS (R31): a 1 in bit 1 clears DONE, a 1 in bit 2 clears ERR; ERRCODE stays. -/
def clearStatus (v : Word) (s : State) : State :=
  { s with done := s.done && !v.getLsbD 1, err := s.err && !v.getLsbD 2 }

/-- The interrupt output `irq = IE & (DONE | ERR)` (60_exceptions.md R233). -/
def State.irq (s : State) : Bool := s.ie && (s.done || s.err)

/-- BPV1, BPV2 <- 0, which every writer of a bank's samples does (42_planar2bpp.md R151). -/
def Raster.dropPlanes (r : Raster) : Raster := { r with bp1 := none, bp2 := none }

/-- BANK_DESC of a valid bank (10_state.md R36): VALID bit 0, V bit 1, C bit 2, BPV1 bit 3, BPV2 bit 4. -/
def Raster.descWord (r : Raster) : Word :=
  flagBit true 0 ||| flagBit (r.variant = .planar2bpp) 1 ||| flagBit (r.order = .colMajor) 2
    ||| flagBit r.bp1.isSome 3 ||| flagBit r.bp2.isSome 4

end Sys2Proof.Machine
end

