-- ==== Sys2Proof/Machine/Operands.lean ====
section
/-! DEFINITION. The operand forms of the commands and the checks that go with each, in the order of
60_exceptions.md R232. Each form ends the command with its error or hands the operand to the rest of it. -/

namespace Sys2Proof.Machine

/-- PALMAX of a variant (40_tile_grid.md R108). -/
def palMax : Variant → Nat
  | .packed4bpp => 16
  | .planar2bpp => 4

/-- BPT, the bytes of one tile (00_scope.md R6). -/
def bytesPerTile : Variant → Nat
  | .packed4bpp => 32
  | .planar2bpp => 16

/-- The number of legal sample values of a variant (10_state.md R44). -/
def sampleLimit : Variant → Nat
  | .packed4bpp => 16
  | .planar2bpp => 4

/-- The destination bank of a command that builds it: it must exist (60_exceptions.md R225). -/
def withDest (db : Nat) (s : State) (k : Result) : Result :=
  if s.nbanks ≤ db then fail .bank db 0 s else k

/-- A bank that must hold a raster: it must exist, then be valid (R225). -/
def withRaster (b : Nat) (s : State) (k : Raster → Result) : Result :=
  if s.nbanks ≤ b then fail .bank b 0 s
  else match s.raster b with
    | none => fail .bank b 1 s
    | some r => k r

/-- The bank checks common to the extractions, in the order of 43_subimage.md R161. -/
def withSourceDest (sb db : Nat) (s : State) (k : Raster → Result) : Result :=
  if s.nbanks ≤ sb then fail .bank sb 0 s
  else if s.nbanks ≤ db then fail .bank db 0 s
  else if sb = db then fail .bank db 2 s
  else match s.raster sb with
    | none => fail .bank sb 1 s
    | some r => k r

/-- Bit-plane views exist for planar banks only (60_exceptions.md R226). -/
def withPlanar (b : Nat) (r : Raster) (s : State) (k : Result) : Result :=
  match r.variant with
  | .packed4bpp => fail .variant b 0 s
  | .planar2bpp => k

/-- The pixel operands x = ARG0, y = ARG1 (40_tile_grid.md R114, checks 3 and 4). -/
def withPixel (r : Raster) (s : State) (k : Nat → Nat → Result) : Result :=
  if 8 * r.wt.toNat ≤ s.arg0.toNat then fail .range s.arg0.toNat (8 * r.wt.toNat) s
  else if 8 * r.ht.toNat ≤ s.arg1.toNat then fail .range s.arg1.toNat (8 * r.ht.toNat) s
  else k s.arg0.toNat s.arg1.toNat

/-- The palette a bank gets: the first PAL_IN_SIZE staging entries, padded with PALPAD to full size (R108). -/
def State.loadedPalette (s : State) (v : Variant) : List Word :=
  s.palIn.toList.take s.palInSize.toNat ++ List.replicate (palMax v - s.palInSize.toNat) Config.palPad

/-- The palette operand (R108). -/
def withPalette (v : Variant) (s : State) (k : List Word → Result) : Result :=
  if palMax v < s.palInSize.toNat then fail .palette s.palInSize.toNat (palMax v) s else k (s.loadedPalette v)

/-- The geometry operand WT = ARG0, HT = ARG1 (R113). -/
def withGeometry (s : State) (k : Word → Word → Result) : Result :=
  if s.arg0.toNat = 0 then fail .range 0 1 s
  else if s.arg1.toNat = 0 then fail .range 0 1 s
  else if s.cfg.bankTiles < s.arg0.toNat * s.arg1.toNat then
    fail .capacity (s.arg0.toNat * s.arg1.toNat) s.cfg.bankTiles s
  else k s.arg0 s.arg1

/-- A buffer in MEM, checked whole before it is touched (20_memory.md R72). -/
def withBuffer (a n : Nat) (s : State) (k : Result) : Result :=
  if s.inMem a n then k else fail .bus a n s

/-- LZC's source and destination ranges are both non-empty and intersect (20_memory.md R73). -/
abbrev State.buffersOverlap (s : State) : Prop :=
  0 < s.srcLen.toNat ∧ 0 < s.dstCap.toNat ∧ s.srcAddr.toNat < s.dstAddr.toNat + s.dstCap.toNat ∧
    s.dstAddr.toNat < s.srcAddr.toNat + s.srcLen.toNat

/-- Write an output whole at DST_ADDR, or fail and write nothing when it is longer than DST_CAP (20_memory.md R74). -/
def emit (out : List Byte) (s : State) : Result :=
  if s.dstCap.toNat < out.length then fail .overflow out.length s.dstCap.toNat s
  else finish { s.memWrite s.dstAddr.toNat out with dstLen := BitVec.ofNat 32 out.length }

end Sys2Proof.Machine
end

