-- ==== Sys2Proof/Machine/TileGrid.lean ====
section
/-! DEFINITION. The tile grid and the two tile formats as pure functions (40_tile_grid.md R100 to R107,
41_packed4bpp.md R130, R131, 42_planar2bpp.md R140, R141). -/

namespace Sys2Proof.Machine

/-- The tile position (tileX, tileY) of tile index `t` (R100). -/
def tilePos (t wt ht : Nat) : Traversal → Nat × Nat
  | .rowMajor => (t % wt, t / wt)
  | .colMajor => (t / ht, t % ht)

/-- The tile index of a tile position, the inverse of `tilePos` (R101). -/
def tileIndex (tx ty wt ht : Nat) : Traversal → Nat
  | .rowMajor => ty * wt + tx
  | .colMajor => tx * ht + ty

/-- The sample at tile-local row `r`, column `c` of a packed tile: low nibble left, high nibble right (R130). -/
def unpack4 (t : List Byte) (r c : Nat) : Sample :=
  let b := t.getD (4 * r + c / 2) 0
  if c % 2 = 0 then b.extractLsb' 0 4 else b.extractLsb' 4 4

/-- The 32 bytes of a packed tile: `(tile(r, 2k+1) << 4) | tile(r, 2k)` (R131). -/
def pack4 (tile : Nat → Nat → Sample) : List Byte :=
  (List.range 8).flatMap fun r => (List.range 4).map fun k =>
    (tile r (2 * k + 1)).setWidth 8 <<< 4 ||| (tile r (2 * k)).setWidth 8

/-- The sample at row `r`, column `c` of a planar tile: `(highBit << 1) | lowBit`, bit `7 - c` of the row's two
bytes (R140). -/
def unpack2 (t : List Byte) (r c : Nat) : Sample :=
  let lowBit := (t.getD (2 * r) 0 >>> (7 - c)) &&& 1
  let highBit := (t.getD (2 * r + 1) 0 >>> (7 - c)) &&& 1
  (highBit <<< 1 ||| lowBit).setWidth 4

/-- One plane byte of a planar row: the OR of bit `n` of each sample at position `7 - c` (R141). -/
def planeByte (tile : Nat → Nat → Sample) (r n : Nat) : Byte :=
  (List.range 8).foldl (fun acc c => acc ||| ((tile r c).extractLsb' n 1).setWidth 8 <<< (7 - c)) 0

/-- The 16 bytes of a planar tile: low byte then high byte per row (R141). -/
def pack2 (tile : Nat → Nat → Sample) : List Byte :=
  (List.range 8).flatMap fun r => [planeByte tile r 0, planeByte tile r 1]

/-- `unpackV` (R104). -/
def unpack : Variant → List Byte → Nat → Nat → Sample
  | .packed4bpp => unpack4
  | .planar2bpp => unpack2

/-- `packV` (R106). -/
def pack : Variant → (Nat → Nat → Sample) → List Byte
  | .packed4bpp => pack4
  | .planar2bpp => pack2

/-- A grid of `w` columns and `h` rows, row by row from the top left. -/
def gridOf {α : Type} (w h : Nat) (f : Nat → Nat → α) : List α :=
  (List.range (w * h)).map fun i => f (i % w) (i / w)

/-- The cell at column `x`, row `y` of a grid of `w` columns. -/
def gridAt {α : Type} (g : List α) (w x y : Nat) (dflt : α) : α := g.getD (y * w + x) dflt

/-- The tile bytes `B[t*BPT .. (t+1)*BPT)` (R102). -/
def tileBytes (v : Variant) (b : List Byte) (t : Nat) : List Byte :=
  (b.drop (t * bytesPerTile v)).take (bytesPerTile v)

/-- The number of whole tiles the buffer gives the grid (R105). -/
def availTiles (v : Variant) (len wt ht : Nat) : Nat := min (len / bytesPerTile v) (wt * ht)

/-- `decodeGrid` (R104): the sample at (x, y) comes from the tile whose position is (x / 8, y / 8), if that tile is
available, else it is 0. By R101 that tile is unique, so this is the loop of R104 (log 12). -/
def decodeGrid (b : List Byte) (wt ht : Nat) (v : Variant) (c : Traversal) : List Sample :=
  gridOf (8 * wt) (8 * ht) fun x y =>
    let t := tileIndex (x / 8) (y / 8) wt ht c
    if t < availTiles v b.length wt ht then unpack v (tileBytes v b t) (y % 8) (x % 8) else 0

/-- The tile at a tile position of a grid, as a function of tile-local row and column (R106). -/
def gridTile (g : List Sample) (wt : Nat) (pos : Nat × Nat) (r c : Nat) : Sample :=
  gridAt g (8 * wt) (8 * pos.1 + c) (8 * pos.2 + r) 0

/-- `encodeGrid` (R106): every tile in traversal order. -/
def encodeGrid (g : List Sample) (wt ht : Nat) (v : Variant) (c : Traversal) : List Byte :=
  (List.range (wt * ht)).flatMap fun t => pack v (gridTile g wt (tilePos t wt ht c))

/-- `BANK[b].S(x, y)` (10_state.md R43). -/
def Raster.sample (r : Raster) (x y : Nat) : Sample := gridAt r.samples (8 * r.wt.toNat) x y 0

/-- `BANK[b].S(x, y) <- v`. -/
def Raster.setSample (r : Raster) (x y : Nat) (v : Sample) : Raster :=
  { r with samples := r.samples.set (y * (8 * r.wt.toNat) + x) v }

end Sys2Proof.Machine
end

