-- ==== Sys2Proof/Machine/BitPlane.lean ====
section
/-! DEFINITION. The bit-plane views and their cache: TBPL.1, TBPL.2, TPXG.B1, TPXG.B2 (42_planar2bpp.md R146 to R153). -/

namespace Sys2Proof.Machine

/-- The two bit-planes (R146): plane 1 is the low bit of each sample, plane 2 the high bit. -/
inductive Plane where
  | one
  | two
  deriving DecidableEq, Repr

/-- The sample bit of a plane, `n - 1` (R146). -/
def Plane.bitIndex : Plane → Nat
  | .one => 0
  | .two => 1

/-- BPn with its flag BPVn (10_state.md R29). -/
def Raster.cached (r : Raster) : Plane → Option (List (BitVec 1))
  | .one => r.bp1
  | .two => r.bp2

/-- `plane_n(x, y) = S(x, y)[n - 1]` for every cell, in the order of the samples (R146, R150). -/
def Raster.computePlane (r : Raster) (n : Plane) : List (BitVec 1) :=
  r.samples.map fun v => v.extractLsb' n.bitIndex 1

/-- `BPn <- cells ; BPVn <- 1`. -/
def Raster.storePlane (r : Raster) (cells : List (BitVec 1)) : Plane → Raster
  | .one => { r with bp1 := some cells }
  | .two => { r with bp2 := some cells }

/-- `fillplane(b, n)` (R150): nothing is done when the plane is cached. -/
def Raster.fillPlane (r : Raster) (n : Plane) : Raster :=
  match r.cached n with
  | some _ => r
  | none => r.storePlane (r.computePlane n) n

/-- `BPn(x, y)` of the cached plane. -/
def Raster.planeBit (r : Raster) (n : Plane) (x y : Nat) : BitVec 1 :=
  gridAt ((r.cached n).getD []) (8 * r.wt.toNat) x y 0

/-- TBPL, the common part (R147, R148). -/
def tbpl (n : Plane) (sb : Nat) (s : State) : Result :=
  withRaster sb s fun r => withPlanar sb r s <| finish (s.setRaster sb (r.fillPlane n))

/-- TPXG.B1 and TPXG.B2, the common part (R149, R153). -/
def tpxgPlane (n : Plane) (sb : Nat) (s : State) : Result :=
  withRaster sb s fun r => withPlanar sb r s <| withPixel r s fun x y =>
    finish { s.setRaster sb (r.fillPlane n) with result := ((r.fillPlane n).planeBit n x y).setWidth 32 }

/-- TBPL.1 (R147). -/
def execTbpl1 (sb : Nat) (s : State) : Result := tbpl .one sb s

/-- TBPL.2 (R148). -/
def execTbpl2 (sb : Nat) (s : State) : Result := tbpl .two sb s

/-- TPXG.B1 (R149). -/
def execTpxgB1 (sb : Nat) (s : State) : Result := tpxgPlane .one sb s

/-- TPXG.B2 (R153). -/
def execTpxgB2 (sb : Nat) (s : State) : Result := tpxgPlane .two sb s

end Sys2Proof.Machine
end

