-- ==== Sys2Proof/Machine/Extract.lean ====
section
/-! DEFINITION. Sub-raster extraction: TXRNG, TXRCT, TXFRM (43_subimage.md R160 to R166). -/

namespace Sys2Proof.Machine

/-- What every extraction gives its destination (R160): variant, palette and traversal flag of the source, a new
geometry and new samples, no cached plane. -/
def Raster.derive (r : Raster) (wt ht : Word) (samples : List Sample) : Raster :=
  { r with wt := wt, ht := ht, samples := samples, bp1 := none, bp2 := none }

/-- The samples of a tile range (R162): destination tile `i` is source tile `from + i` of the traversal. -/
def Raster.rangeSamples (r : Raster) (lo n : Nat) : List Sample :=
  gridOf (8 * n) 8 fun x y =>
    let pos := tilePos (lo + x / 8) r.wt.toNat r.ht.toNat r.order
    r.sample (8 * pos.1 + x % 8) (8 * pos.2 + y)

/-- The samples of a tile rectangle (R164). -/
def Raster.rectSamples (r : Raster) (x y w h : Nat) : List Sample :=
  gridOf (8 * w) (8 * h) fun i j => r.sample (8 * x + i) (8 * y + j)

/-- TXRNG (R162). -/
def execTxrng (sb db : Nat) (s : State) : Result :=
  withSourceDest sb db s fun r =>
    let lo := s.arg0.toNat
    let hi := s.arg1.toNat
    if hi ≤ lo then fail .range lo hi s
    else if r.wt.toNat * r.ht.toNat < hi then fail .range hi (r.wt.toNat * r.ht.toNat) s
    else finish (s.setRaster db (r.derive (BitVec.ofNat 32 (hi - lo)) 1 (r.rangeSamples lo (hi - lo))))

/-- TXRCT (R164). -/
def execTxrct (sb db : Nat) (s : State) : Result :=
  withSourceDest sb db s fun r =>
    let x := s.arg0.toNat
    let y := s.arg1.toNat
    let w := s.arg2.toNat
    let h := s.arg3.toNat
    if w = 0 then fail .range 0 1 s
    else if h = 0 then fail .range 0 1 s
    else if r.wt.toNat < x + w then fail .range (x + w) r.wt.toNat s
    else if r.ht.toNat < y + h then fail .range (y + h) r.ht.toNat s
    else finish (s.setRaster db (r.derive s.arg2 s.arg3 (r.rectSamples x y w h)))

/-- TXFRM (R165): the frame of index ARG0 in the grid of FRAME_W x FRAME_H-tile frames. -/
def execTxfrm (sb db : Nat) (s : State) : Result :=
  withSourceDest sb db s fun r =>
    let fw := s.frameW.toNat
    let fh := s.frameH.toNat
    let fpr := r.wt.toNat / fw
    let fpc := r.ht.toNat / fh
    let i := s.arg0.toNat
    if fw = 0 ∨ fh = 0 then fail .frameUnconf fw fh s
    else if r.wt.toNat % fw ≠ 0 then fail .frameDivide fw r.wt.toNat s
    else if r.ht.toNat % fh ≠ 0 then fail .frameDivide fh r.ht.toNat s
    else if fpr * fpc ≤ i then fail .range i (fpr * fpc) s
    else finish (s.setRaster db
      (r.derive s.frameW s.frameH (r.rectSamples (i % fpr * fw) (i / fpr * fh) fw fh)))

end Sys2Proof.Machine
end

