-- ==== Sys2Proof/Machine/Lzss.lean ====
section
/-! DEFINITION. The LZSS compressor: LZC.A, LZC.B (44_lzss.md R180 to R206). -/

namespace Sys2Proof.Machine

/-- The two stream formats (00_scope.md R12). -/
inductive LzVariant where
  | a
  | b
  deriving DecidableEq, Repr

/-- The format tag, byte 0 of the stream (R181). -/
def LzVariant.tag : LzVariant → Byte
  | .a => 0x10
  | .b => 0x11

/-- MAXLEN (R186). -/
def LzVariant.maxLen : LzVariant → Nat
  | .a => 18
  | .b => 0x10110

/-- A token (R191, R192). -/
inductive Token where
  | literal (b : Byte)
  | copy (len disp : Nat)
  deriving DecidableEq, Repr

/-! ### The match search -/

/-- How many leading bytes of two lists agree, at most `cap` (the inner loop of R187). -/
def commonPrefix : Nat → List Byte → List Byte → Nat
  | cap + 1, x :: xs, y :: ys => if x = y then commonPrefix cap xs ys + 1 else 0
  | _, _, _ => 0

/-- `mlen(d)` at position `p` (R187): the source `B[p-d ..)` may run past `p` (R189). -/
def matchLen (b : List Byte) (p cap d : Nat) : Nat := commonPrefix cap (b.drop (p - d)) (b.drop p)

/-- A candidate of length `l` replaces the best of length `best` (R196). -/
def replaces (tie : LzTie) (l best : Nat) : Bool :=
  match tie with
  | .farthest => best < l
  | .nearest => best ≤ l ∧ 1 ≤ l

/-- The scan of R187 over `d`, `d - 1`, ..., 1: the best (length, displacement), largest displacement first. -/
def scan (tie : LzTie) (b : List Byte) (p cap : Nat) : Nat → Nat × Nat → Nat × Nat
  | 0, best => best
  | d + 1, best =>
    let l := matchLen b p cap (d + 1)
    scan tie b p cap d (if replaces tie l best.1 then (l, d + 1) else best)

/-- `findMatch(B, p, MAXLEN)` (R187, R188, R190). -/
def findMatch (tie : LzTie) (b : List Byte) (p maxLen : Nat) : Nat × Nat :=
  scan tie b p (min maxLen (b.length - p)) (min p Config.lzWindow) (0, 0)

/-- The greedy loop (R186, R197) from position `p`. `fuel` bounds the tokens: each consumes at least one byte, so the
input length is enough. -/
def tokensFrom (tie : LzTie) (b : List Byte) (maxLen : Nat) : Nat → Nat → List Token
  | 0, _ => []
  | fuel + 1, p =>
    if p < b.length then
      let m := findMatch tie b p maxLen
      if Config.lzMinMatch ≤ m.1 then .copy m.1 m.2 :: tokensFrom tie b maxLen fuel (p + m.1)
      else .literal (b.getD p 0) :: tokensFrom tie b maxLen fuel (p + 1)
    else []

/-- The tokens of an input, in input order (R182). -/
def tokens (tie : LzTie) (b : List Byte) (maxLen : Nat) : List Token := tokensFrom tie b maxLen b.length 0

/-! ### Token bytes -/

/-- The bits 7:0 of a natural as a byte. -/
def byteOf (n : Nat) : Byte := BitVec.ofNat 8 n

/-- `tokenA(len, disp)` (R198). -/
def tokenA (len disp : Nat) : List Byte :=
  [byteOf ((len - 3) <<< 4 ||| (disp - 1) >>> 8), byteOf ((disp - 1) &&& 0xFF)]

/-- `tokenB1(len, disp)` (R199). -/
def tokenB1 (len disp : Nat) : List Byte :=
  [byteOf ((len - 1) <<< 4 ||| (disp - 1) >>> 8), byteOf ((disp - 1) &&& 0xFF)]

/-- `tokenB2(len, disp)` (R200). -/
def tokenB2 (len disp : Nat) : List Byte :=
  let e := len - 0x11
  [byteOf (e >>> 4), byteOf ((e &&& 0xF) <<< 4 ||| (disp - 1) >>> 8), byteOf ((disp - 1) &&& 0xFF)]

/-- `tokenB3(len, disp)` (R201). -/
def tokenB3 (len disp : Nat) : List Byte :=
  let e := len - 0x111
  [byteOf (0x10 ||| e >>> 12), byteOf ((e >>> 4) &&& 0xFF), byteOf ((e &&& 0xF) <<< 4 ||| (disp - 1) >>> 8),
    byteOf ((disp - 1) &&& 0xFF)]

/-- `tokenB(len, disp)`: the tier by the length (R202). -/
def tokenB (len disp : Nat) : List Byte :=
  if len ≤ 0x10 then tokenB1 len disp else if len ≤ 0x110 then tokenB2 len disp else tokenB3 len disp

/-- The bytes of a match token in a variant (R198, R202). -/
def copyBytes : LzVariant → Nat → Nat → List Byte
  | .a => tokenA
  | .b => tokenB

/-- The bytes of a token (R191, R192). -/
def tokenBytes (v : LzVariant) : Token → List Byte
  | .literal b => [b]
  | .copy len disp => copyBytes v len disp

/-! ### The stream -/

/-- The control byte of a group whose first token sits in slot `k`: `OR of (0x80 >> k)` over the match tokens (R183);
unused slots are 0 (R184). -/
def controlByte : Nat → List Token → Byte
  | _, [] => 0
  | k, .literal _ :: ts => controlByte (k + 1) ts
  | k, .copy _ _ :: ts => (0x80 : Byte) >>> k ||| controlByte (k + 1) ts

/-- A group: its control byte and the bytes of its tokens (R182). -/
def groupBytes (v : LzVariant) (ts : List Token) : List Byte := controlByte 0 ts :: ts.flatMap (tokenBytes v)

/-- The body: the tokens cut into groups of 8, no empty group (R182). `fuel` bounds the groups; the token count is
enough. -/
def bodyGroups (v : LzVariant) : Nat → List Token → List Byte
  | _, [] => []
  | 0, _ => []
  | fuel + 1, t :: ts => groupBytes v ((t :: ts).take 8) ++ bodyGroups v fuel ((t :: ts).drop 8)

/-- Byte `k` of a length, little-endian (R181). -/
def lengthByte (n k : Nat) : Byte := byteOf (n >>> (8 * k))

/-- The header (R181): 4 bytes, or 8 when the length exceeds the 3-byte range. -/
def header (v : LzVariant) (n : Nat) : List Byte :=
  if n ≤ 0xFFFFFF then [v.tag, lengthByte n 0, lengthByte n 1, lengthByte n 2]
  else [v.tag, 0, 0, 0, lengthByte n 0, lengthByte n 1, lengthByte n 2, lengthByte n 3]

/-- `compress(B, variant)` (R180, R203); nothing follows the last group (R185). -/
def compress (tie : LzTie) (v : LzVariant) (b : List Byte) : List Byte :=
  let ts := tokens tie b v.maxLen
  header v b.length ++ bodyGroups v ts.length ts

/-! ### The commands -/

/-- LZC, the common part (R206). -/
def lzc (v : LzVariant) (s : State) : Result :=
  withBuffer s.srcAddr.toNat s.srcLen.toNat s <| withBuffer s.dstAddr.toNat s.dstCap.toNat s <|
    if s.buffersOverlap then fail .bus s.dstAddr.toNat s.dstCap.toNat s
    else emit (compress s.cfg.lzTie v (s.memRead s.srcAddr.toNat s.srcLen.toNat)) s

/-- LZC.A (R204). -/
def execLzcA (s : State) : Result := lzc .a s

/-- LZC.B (R205). -/
def execLzcB (s : State) : Result := lzc .b s

end Sys2Proof.Machine
end

