-- ==== Sys2Proof/Machine/TileOps.lean ====
section
/-! DEFINITION. TDEC, TNEW, TENC, TPXG, TPXS (40_tile_grid.md R109 to R116, 41_packed4bpp.md R133, R134,
42_planar2bpp.md R143, R144). -/

namespace Sys2Proof.Machine

/-- Build bank `db` from a byte list: the common action of TDEC and TNEW (R109, R112). -/
def buildFrom (b : List Byte) (v : Variant) (c : Traversal) (db : Nat) (pal : List Word) (wt ht : Word)
    (s : State) : State :=
  s.setRaster db
    { variant := v, order := c, wt := wt, ht := ht, pal := pal
      samples := decodeGrid b wt.toNat ht.toNat v c, bp1 := none, bp2 := none }

/-- TDEC, the common part (R109). -/
def tdec (v : Variant) (db : Nat) (c : Traversal) (s : State) : Result :=
  withDest db s <| withPalette v s fun pal => withGeometry s fun wt ht =>
    withBuffer s.srcAddr.toNat s.srcLen.toNat s <|
      finish (buildFrom (s.memRead s.srcAddr.toNat s.srcLen.toNat) v c db pal wt ht s)

/-- TNEW, the common part (R112): TDEC with an empty buffer and no memory access. -/
def tnew (v : Variant) (db : Nat) (c : Traversal) (s : State) : Result :=
  withDest db s <| withPalette v s fun pal => withGeometry s fun wt ht =>
    finish (buildFrom [] v c db pal wt ht s)

/-- TDEC.P4 (41_packed4bpp.md R133). -/
def execTdecP4 (db : Nat) (c : Traversal) (s : State) : Result := tdec .packed4bpp db c s

/-- TDEC.P2 (42_planar2bpp.md R143). -/
def execTdecP2 (db : Nat) (c : Traversal) (s : State) : Result := tdec .planar2bpp db c s

/-- TNEW.P4 (41_packed4bpp.md R134). -/
def execTnewP4 (db : Nat) (c : Traversal) (s : State) : Result := tnew .packed4bpp db c s

/-- TNEW.P2 (42_planar2bpp.md R144). -/
def execTnewP2 (db : Nat) (c : Traversal) (s : State) : Result := tnew .planar2bpp db c s

/-- TENC (R110). -/
def execTenc (sb : Nat) (s : State) : Result :=
  withRaster sb s fun r => withBuffer s.dstAddr.toNat s.dstCap.toNat s <|
    emit (encodeGrid r.samples r.wt.toNat r.ht.toNat r.variant r.order) s

/-- TPXG (R114): RESULT <- the sample, zero-extended. -/
def execTpxg (sb : Nat) (s : State) : Result :=
  withRaster sb s fun r => withPixel r s fun x y =>
    finish { s with result := (r.sample x y).setWidth 32 }

/-- TPXS (R116): one sample, and both plane caches dropped. -/
def execTpxs (db : Nat) (s : State) : Result :=
  withRaster db s fun r => withPixel r s fun x y =>
    if sampleLimit r.variant ≤ s.arg2.toNat then fail .range s.arg2.toNat (sampleLimit r.variant) s
    else finish (s.setRaster db (r.setSample x y (s.arg2.setWidth 4)).dropPlanes)

end Sys2Proof.Machine
end

