-- ==== Sys2Proof/Machine/Dispatch.lean ====
section
/-! DEFINITION. One arm per command. `exec i s` runs an accepted command to its end (10_state.md R28). -/

namespace Sys2Proof.Machine

def exec (i : Instr) (s : State) : Host.Outcome State Fault Refusal :=
  match i with
  | .tdecP4 db c => Sys2Proof.Machine.execTdecP4 db c s
  | .tdecP2 db c => Sys2Proof.Machine.execTdecP2 db c s
  | .tenc sb => Sys2Proof.Machine.execTenc sb s
  | .tnewP4 db c => Sys2Proof.Machine.execTnewP4 db c s
  | .tnewP2 db c => Sys2Proof.Machine.execTnewP2 db c s
  | .txrng sb db => Sys2Proof.Machine.execTxrng sb db s
  | .txrct sb db => Sys2Proof.Machine.execTxrct sb db s
  | .txfrm sb db => Sys2Proof.Machine.execTxfrm sb db s
  | .tbpl1 sb => Sys2Proof.Machine.execTbpl1 sb s
  | .tbpl2 sb => Sys2Proof.Machine.execTbpl2 sb s
  | .tpxg sb => Sys2Proof.Machine.execTpxg sb s
  | .tpxgB1 sb => Sys2Proof.Machine.execTpxgB1 sb s
  | .tpxgB2 sb => Sys2Proof.Machine.execTpxgB2 sb s
  | .tpxs db => Sys2Proof.Machine.execTpxs db s
  | .lzcA => Sys2Proof.Machine.execLzcA s
  | .lzcB => Sys2Proof.Machine.execLzcB s

end Sys2Proof.Machine
end

