-- ==== Sys2Proof/Machine/HostPort.lean ====
section
/-! DEFINITION. The host's side of the block: the register space (10_state.md R20 to R37, 20_memory.md R63, R66), the
MEM port (R60, R62) and the running of a command written to CMD (R28, R32). -/

namespace Sys2Proof.Machine

/-- The registers at offsets 0x00 to 0x54, one a word, in the order of R20. -/
def lowRegs : List Reg :=
  [.ctrl, .status, .cmd, .result, .srcAddr, .srcLen, .dstAddr, .dstCap, .dstLen, .arg0, .arg1, .arg2, .arg3,
    .frameW, .frameH, .errInfo0, .errInfo1, .palInSize, .bankSel, .bankDesc, .bankWt, .bankHt]

/-- The register at a byte offset (R20): words only, at multiples of 4, up to 0xFC (R63); 0x58 to 0x7C are reserved. -/
def regAt (off : Nat) : Option Reg :=
  if off % 4 ≠ 0 ∨ 0xFC < off then none
  else if off < 0x80 then some (lowRegs.getD (off / 4) .reserved)
  else if off < 0xC0 then some (.palIn (Fin.ofNat 16 ((off - 0x80) / 4)))
  else some (.bankPal (Fin.ofNat 16 ((off - 0xC0) / 4)))

/-- The offset of CMD (R20). -/
def cmdOffset : Nat := 0x08

/-- The raster the read-back window shows (R36). -/
def State.window (s : State) : Option Raster := s.raster s.bankSel.toNat

/-- A window word: 0 when the selected bank does not exist or is not valid (R36). -/
def State.windowWord (s : State) (f : Raster → Word) : Word :=
  match s.window with
  | none => 0
  | some r => f r

/-- What a register reads as. No read has a side effect (20_memory.md R65). -/
def State.readReg (s : State) : Reg → Word
  | .ctrl => s.ctrlWord
  | .status => s.statusWord
  | .cmd => s.cmd
  | .result => s.result
  | .srcAddr => s.srcAddr
  | .srcLen => s.srcLen
  | .dstAddr => s.dstAddr
  | .dstCap => s.dstCap
  | .dstLen => s.dstLen
  | .arg0 => s.arg0
  | .arg1 => s.arg1
  | .arg2 => s.arg2
  | .arg3 => s.arg3
  | .frameW => s.frameW
  | .frameH => s.frameH
  | .errInfo0 => s.errInfo0
  | .errInfo1 => s.errInfo1
  | .palInSize => s.palInSize
  | .bankSel => s.bankSel.setWidth 32
  | .bankDesc => s.windowWord Raster.descWord
  | .bankWt => s.windowWord Raster.wt
  | .bankHt => s.windowWord Raster.ht
  | .reserved => 0
  | .palIn i => s.palIn[i]
  | .bankPal i => s.windowWord fun r => r.pal.getD i 0

/-- A command runs from its acceptance to its end (R28); an illegal word ends in E_ILLEGAL(w, 0) (60_exceptions.md
R221). -/
def runCommand (w : Word) (s : State) : Result :=
  match decode w with
  | .ok i => exec i (accept w s)
  | .error _ => fail .illegal w.toNat 0 (accept w s)

/-- A write to CTRL while idle (R30, 70_reset_and_hazards.md R263): SRST = 1 resets and discards the other bits. -/
def writeCtrl (v : Word) (s : State) : State := if v.getLsbD 1 then softReset s else { s with ie := v.getLsbD 0 }

/-- A host write to a register while BUSY = 0 (R272). Read-only and reserved locations ignore it (R20, R37). -/
def writeReg (r : Reg) (v : Word) (s : State) : Result :=
  match r with
  | .ctrl => .next (writeCtrl v s)
  | .status => .next (clearStatus v s)
  | .cmd => runCommand v s
  | .result => .next s
  | .srcAddr => .next { s with srcAddr := v }
  | .srcLen => .next { s with srcLen := v }
  | .dstAddr => .next { s with dstAddr := v }
  | .dstCap => .next { s with dstCap := v }
  | .dstLen => .next s
  | .arg0 => .next { s with arg0 := v }
  | .arg1 => .next { s with arg1 := v }
  | .arg2 => .next { s with arg2 := v }
  | .arg3 => .next { s with arg3 := v }
  | .frameW => .next { s with frameW := v }
  | .frameH => .next { s with frameH := v }
  | .errInfo0 => .next s
  | .errInfo1 => .next s
  | .palInSize => .next { s with palInSize := v }
  | .bankSel => .next { s with bankSel := v.setWidth 4 }
  | .bankDesc => .next s
  | .bankWt => .next s
  | .bankHt => .next s
  | .reserved => .next s
  | .palIn i => .next { s with palIn := s.palIn.set i v }
  | .bankPal _ => .next s

/-- A host write while BUSY = 1: a CMD write is ignored (R28), STATUS may be accessed (R270), a soft reset abandons
the command (R263); the outcome of any other is not defined (R272, log 7). -/
def writeRegBusy (r : Reg) (v : Word) (s : State) : Result :=
  match r with
  | .cmd => .next s
  | .status => .next (clearStatus v s)
  | .ctrl => if v.getLsbD 1 then .next (hardReset s) else .refused .hostAccessWhileBusy
  | _ => .refused .hostAccessWhileBusy

/-- A host access to the register at an offset. -/
def atRegister (off : Nat) (k : Reg → Result) : Result :=
  match regAt off with
  | none => .refused .registerOffset
  | some r => k r

/-- A host access to the `n` bytes of MEM at `a`: not while BUSY = 1, and only to bytes that exist (R60, R270). -/
def atMem (a n : Nat) (s : State) (k : Result) : Result :=
  if s.busy then .refused .hostAccessWhileBusy
  else if n = 0 ∨ s.inMem a n then k
  else .fault .hostMemOutOfRange

/-- One host action. -/
def hostAct (act : HostAction) (s : State) : Result :=
  match act with
  | .writeReg off v => atRegister off fun r => if s.busy then writeRegBusy r v s else writeReg r v s
  | .readReg off => atRegister off fun r =>
      if s.busy ∧ r ≠ .status then .refused .hostAccessWhileBusy else .next { s with regData := s.readReg r }
  | .writeMem a bs => atMem a.toNat bs.length s <| .next (s.memWrite a.toNat bs)
  | .readMem a n => atMem a.toNat n s <| .next { s with memData := s.memRead a.toNat n }
  | .reset => .next (hardReset s)

end Sys2Proof.Machine
end

