-- ==== Sys2Proof/Machine/Step.lean ====
section
/-! DEFINITION. One step: the host's oldest pending action, a command included, takes effect whole (10_state.md R28, log 2).
With nothing pending the block waits. -/

namespace Sys2Proof.Machine

/-- One step of the machine. -/
def step (s : State) : Host.Outcome State Fault Refusal :=
  match s.host with
  | [] => .next s
  | act :: rest => hostAct act { s with host := rest }

/-- `s` with a write of a command word to CMD as the host's next action. BUSY is cleared because a CMD write is
ignored while it is 1 (R28); the rest of the script follows the command. -/
def State.withFetchWord (s : State) (nbits w : Nat) : State :=
  { s with busy := false, host := .writeReg cmdOffset (tableWord nbits w) :: s.host }

end Sys2Proof.Machine
end

