-- ==== Sys2Proof/Machine/Reference.lean ====
section
/-! DEFINITION. The reference decompressor of 44_lzss.md R212: not hardware, no step calls it; it states what a stream
means. On a stream that ends early, or that reaches back before its start, R212 gives no value and this function
answers none (log 17). -/

namespace Sys2Proof.Machine

/-- `b[7:4]`. -/
def highNibble (b : Byte) : Nat := b.toNat / 16

/-- `b[3:0]`. -/
def lowNibble (b : Byte) : Nat := b.toNat % 16

/-- The match token at the head of a stream, with what follows it (R212). -/
def readCopy (tag : Byte) (s : List Byte) : Option (Token × List Byte) :=
  match s with
  | b0 :: b1 :: rest =>
    if tag = 0x10 then some (.copy (highNibble b0 + 3) (lowNibble b0 * 256 + b1.toNat + 1), rest)
    else if highNibble b0 = 0 then
      match rest with
      | b2 :: rest => some (.copy (lowNibble b0 * 16 + highNibble b1 + 0x11) (lowNibble b1 * 256 + b2.toNat + 1), rest)
      | _ => none
    else if highNibble b0 = 1 then
      match rest with
      | b2 :: b3 :: rest =>
        some (.copy (lowNibble b0 * 4096 + b1.toNat * 16 + highNibble b2 + 0x111)
          (lowNibble b2 * 256 + b3.toNat + 1), rest)
      | _ => none
    else some (.copy (highNibble b0 + 1) (lowNibble b0 * 256 + b1.toNat + 1), rest)
  | _ => none

/-- The token at the head of a stream, by its control bit (R183, R212). -/
def readToken (tag : Byte) (isCopy : Bool) (s : List Byte) : Option (Token × List Byte) :=
  if isCopy then readCopy tag s
  else match s with
    | b :: rest => some (.literal b, rest)
    | [] => none

/-- `repeat L times: out = out ++ [out[len(out) - D]]`, byte by byte, so that overlap works (R212). -/
def copyBack : Nat → Nat → List Byte → Option (List Byte)
  | 0, _, out => some out
  | l + 1, d, out => if d ≤ out.length then copyBack l d (out ++ [out.getD (out.length - d) 0]) else none

/-- What a token adds to the output. -/
def expandToken (t : Token) (out : List Byte) : Option (List Byte) :=
  match t with
  | .literal b => some (out ++ [b])
  | .copy len disp => copyBack len disp out

/-- The slots of a group that are left, the first of them at bit `m` of the control byte when `m + 1` are left, until
`n` bytes are out: (the rest of the stream, the output). -/
def readSlots (tag ctrl : Byte) (n : Nat) : Nat → List Byte → List Byte → Option (List Byte × List Byte)
  | 0, s, out => some (s, out)
  | m + 1, s, out =>
    if out.length < n then
      match readToken tag (ctrl.getLsbD m) s with
      | none => none
      | some (t, rest) =>
        match expandToken t out with
        | none => none
        | some out => readSlots tag ctrl n m rest out
    else some (s, out)

/-- The groups of a body, until `n` bytes are out. Each adds at least one byte, so `n` bounds the groups. -/
def readGroups (tag : Byte) (n : Nat) : Nat → List Byte → List Byte → Option (List Byte)
  | 0, _, out => if out.length < n then none else some out
  | fuel + 1, s, out =>
    if out.length < n then
      match s with
      | [] => none
      | ctrl :: s =>
        match readSlots tag ctrl n 8 s out with
        | none => none
        | some (s, out) => readGroups tag n fuel s out
    else some out

/-- `decompress(S)` (R212). -/
def decompress (s : List Byte) : Option (List Byte) :=
  match s with
  | tag :: l0 :: l1 :: l2 :: body =>
    let n := leValue [l0, l1, l2]
    if n = 0 ∧ 8 ≤ s.length then
      match body with
      | m0 :: m1 :: m2 :: m3 :: body =>
        readGroups tag (leValue [m0, m1, m2, m3]) (leValue [m0, m1, m2, m3]) body []
      | _ => none
    else readGroups tag n n body []
  | _ => none

end Sys2Proof.Machine
end

