-- ==== Sys2Proof/Safety.lean ====
section
/-! DEFINITION. What holds of a machine between steps, in the terms the statements use: the invariants of the banks
(10_state.md R39, R42, R44, 42_planar2bpp.md R151), of the status (R28, R31, R34) and of MEM; and the check lists of
60_exceptions.md R232. -/

namespace Sys2Proof.Machine

/-- What is true of every raster in a bank. -/
structure Raster.Ok (c : Config) (r : Raster) : Prop where
  /-- WT >= 1 (R39) -/
  wt_pos : 1 ≤ r.wt.toNat
  /-- HT >= 1 (R39) -/
  ht_pos : 1 ≤ r.ht.toNat
  /-- `WT * HT <= BANK_TILES` always (R39) -/
  tiles : r.wt.toNat * r.ht.toNat ≤ c.bankTiles
  /-- the palette is always full size (R42) -/
  pal_full : r.pal.length = palMax r.variant
  /-- every sample of the grid is defined, and no other (R43) -/
  samples_len : r.samples.length = 8 * r.wt.toNat * (8 * r.ht.toNat)
  /-- every sample is a valid index into the palette (R44) -/
  samples_lt : ∀ v ∈ r.samples, v.toNat < sampleLimit r.variant
  /-- a cached plane 1 equals the plane recomputed from S, and only planar banks have one (R151, R146) -/
  plane_one : ∀ cells, r.bp1 = some cells → r.variant = .planar2bpp ∧ cells = r.computePlane .one
  /-- the same for plane 2 -/
  plane_two : ∀ cells, r.bp2 = some cells → r.variant = .planar2bpp ∧ cells = r.computePlane .two

/-- What is true of the machine between any two steps. -/
structure State.Inv (s : State) : Prop where
  /-- the parameters are in their ranges (00_scope.md R6) -/
  cfg_legal : s.cfg.Legal
  /-- 2 <= NBANKS <= 16 (00_scope.md R6) -/
  banks_legal : 2 ≤ s.nbanks ∧ s.nbanks ≤ 16
  /-- every exposed state has BUSY = 0 (R28) -/
  idle : s.busy = false
  /-- DONE and ERR are never both 1 (R31) -/
  one_end : ¬ (s.done = true ∧ s.err = true)
  /-- DONE goes with ERRCODE 0 (R231) -/
  done_code : s.done = true → s.errCode = .none
  /-- ERR goes with a code (R220, R230) -/
  err_code : s.err = true → s.errCode ≠ .none
  /-- without a code the information words are 0 (R34, R231) -/
  info_zero : s.errCode = .none → s.errInfo0 = 0 ∧ s.errInfo1 = 0
  /-- MEM is in canonical form -/
  mem_wf : s.mem.wf
  /-- only addresses that exist are written (20_memory.md R60) -/
  mem_range : ∀ cell ∈ s.mem, cell.1 < s.cfg.memSize
  /-- every valid bank holds a proper raster -/
  rasters : ∀ r, some r ∈ s.banks → r.Ok s.cfg

/-- A check of an operation: whether it fails, and the error it then raises with its two information values. -/
structure Check where
  fails : Prop
  code : ErrCode
  info0 : Nat
  info1 : Nat

/-- The first failing check of a list ends the command with its error, both values saturated; with none failing, `k` holds of the outcome
(60_exceptions.md R232, R230). -/
def firstFailing (s : State) (o : Result) (k : Prop) : List Check → Prop
  | [] => k
  | c :: cs =>
    (c.fails → o = .next
      { s with errCode := c.code, errInfo0 := BitVec.ofNat 32 (min c.info0 0xFFFFFFFF),
               errInfo1 := BitVec.ofNat 32 (min c.info1 0xFFFFFFFF), err := true, done := false, busy := false }) ∧
    (¬ c.fails → firstFailing s o k cs)

/-- E_BANK reason 0: the bank does not exist (R225). -/
def bankExists (s : State) (b : Nat) : Check := ⟨s.nbanks ≤ b, .bank, b, 0⟩

/-- E_BANK reason 1: the bank is not valid (R225). -/
def bankValid (s : State) (b : Nat) : Check := ⟨s.raster b = none, .bank, b, 1⟩

/-- The bank checks of the extractions (43_subimage.md R161). -/
def extractBankChecks (s : State) (sb db : Nat) : List Check :=
  [bankExists s sb, bankExists s db, ⟨sb = db, .bank, db, 2⟩, bankValid s sb]

/-- The palette and geometry checks of TDEC and TNEW (40_tile_grid.md R108, R113). -/
def buildChecks (s : State) (v : Variant) (db : Nat) : List Check :=
  let wt := s.arg0.toNat
  let ht := s.arg1.toNat
  [bankExists s db, ⟨palMax v < s.palInSize.toNat, .palette, s.palInSize.toNat, palMax v⟩,
    ⟨wt = 0, .range, 0, 1⟩, ⟨ht = 0, .range, 0, 1⟩, ⟨s.cfg.bankTiles < wt * ht, .capacity, wt * ht, s.cfg.bankTiles⟩]

/-- E_BUS for a range not in MEM (20_memory.md R72). -/
def rangeInMem (s : State) (a n : Nat) : Check := ⟨s.cfg.memSize < a + n, .bus, a, n⟩

/-- The pixel checks (40_tile_grid.md R114). -/
def pixelChecks (s : State) (r : Raster) : List Check :=
  [⟨8 * r.wt.toNat ≤ s.arg0.toNat, .range, s.arg0.toNat, 8 * r.wt.toNat⟩,
    ⟨8 * r.ht.toNat ≤ s.arg1.toNat, .range, s.arg1.toNat, 8 * r.ht.toNat⟩]

/-- E_VARIANT (60_exceptions.md R226). -/
def planarOnly (r : Raster) (b : Nat) : Check := ⟨r.variant = .packed4bpp, .variant, b, 0⟩

/-- The checks that depend on the raster of a bank, none when it is not valid (an earlier check then fails). -/
def rasterChecks (s : State) (b : Nat) (f : Raster → List Check) : List Check :=
  match s.raster b with
  | none => []
  | some r => f r

/-- The bytes LZC would produce. -/
def State.compressed (s : State) (v : LzVariant) : List Byte :=
  compress s.cfg.lzTie v (s.memRead s.srcAddr.toNat s.srcLen.toNat)

/-- The checks of LZC (44_lzss.md R206). -/
def lzcChecks (s : State) (v : LzVariant) : List Check :=
  let src := s.srcAddr.toNat
  let dst := s.dstAddr.toNat
  [rangeInMem s src s.srcLen.toNat, rangeInMem s dst s.dstCap.toNat,
    ⟨0 < s.srcLen.toNat ∧ 0 < s.dstCap.toNat ∧ src < dst + s.dstCap.toNat ∧ dst < src + s.srcLen.toNat,
      .bus, dst, s.dstCap.toNat⟩,
    ⟨s.dstCap.toNat < (s.compressed v).length, .overflow, (s.compressed v).length, s.dstCap.toNat⟩]

/-- The order of checks of every operation, from the table of 60_exceptions.md R232. -/
def checks (i : Instr) (s : State) : List Check :=
  match i with
  | .tdecP4 db _ => buildChecks s .packed4bpp db ++ [rangeInMem s s.srcAddr.toNat s.srcLen.toNat]
  | .tdecP2 db _ => buildChecks s .planar2bpp db ++ [rangeInMem s s.srcAddr.toNat s.srcLen.toNat]
  | .tenc sb => [bankExists s sb, bankValid s sb, rangeInMem s s.dstAddr.toNat s.dstCap.toNat] ++
      rasterChecks s sb fun r =>
        let len := r.wt.toNat * r.ht.toNat * bytesPerTile r.variant
        [⟨s.dstCap.toNat < len, .overflow, len, s.dstCap.toNat⟩]
  | .tnewP4 db _ => buildChecks s .packed4bpp db
  | .tnewP2 db _ => buildChecks s .planar2bpp db
  | .txrng sb db => extractBankChecks s sb db ++ rasterChecks s sb fun r =>
      let tiles := r.wt.toNat * r.ht.toNat
      [⟨s.arg1.toNat ≤ s.arg0.toNat, .range, s.arg0.toNat, s.arg1.toNat⟩,
        ⟨tiles < s.arg1.toNat, .range, s.arg1.toNat, tiles⟩]
  | .txrct sb db => extractBankChecks s sb db ++ rasterChecks s sb fun r =>
      [⟨s.arg2.toNat = 0, .range, 0, 1⟩, ⟨s.arg3.toNat = 0, .range, 0, 1⟩,
        ⟨r.wt.toNat < s.arg0.toNat + s.arg2.toNat, .range, s.arg0.toNat + s.arg2.toNat, r.wt.toNat⟩,
        ⟨r.ht.toNat < s.arg1.toNat + s.arg3.toNat, .range, s.arg1.toNat + s.arg3.toNat, r.ht.toNat⟩]
  | .txfrm sb db => extractBankChecks s sb db ++ rasterChecks s sb fun r =>
      let frames := (r.wt.toNat / s.frameW.toNat) * (r.ht.toNat / s.frameH.toNat)
      [⟨s.frameW.toNat = 0 ∨ s.frameH.toNat = 0, .frameUnconf, s.frameW.toNat, s.frameH.toNat⟩,
        ⟨r.wt.toNat % s.frameW.toNat ≠ 0, .frameDivide, s.frameW.toNat, r.wt.toNat⟩,
        ⟨r.ht.toNat % s.frameH.toNat ≠ 0, .frameDivide, s.frameH.toNat, r.ht.toNat⟩,
        ⟨frames ≤ s.arg0.toNat, .range, s.arg0.toNat, frames⟩]
  | .tbpl1 sb => [bankExists s sb, bankValid s sb] ++ rasterChecks s sb fun r => [planarOnly r sb]
  | .tbpl2 sb => [bankExists s sb, bankValid s sb] ++ rasterChecks s sb fun r => [planarOnly r sb]
  | .tpxg sb => [bankExists s sb, bankValid s sb] ++ rasterChecks s sb fun r => pixelChecks s r
  | .tpxgB1 sb => [bankExists s sb, bankValid s sb] ++ rasterChecks s sb fun r => planarOnly r sb :: pixelChecks s r
  | .tpxgB2 sb => [bankExists s sb, bankValid s sb] ++ rasterChecks s sb fun r => planarOnly r sb :: pixelChecks s r
  | .tpxs db => [bankExists s db, bankValid s db] ++ rasterChecks s db fun r =>
      pixelChecks s r ++ [⟨sampleLimit r.variant ≤ s.arg2.toNat, .range, s.arg2.toNat, sampleLimit r.variant⟩]
  | .lzcA => lzcChecks s .a
  | .lzcB => lzcChecks s .b

/-- The bank a command builds whole (10_state.md R40, middle column). -/
def builtBank : Instr → Option Nat
  | .tdecP4 db _ => some db
  | .tdecP2 db _ => some db
  | .tnewP4 db _ => some db
  | .tnewP2 db _ => some db
  | .txrng _ db => some db
  | .txrct _ db => some db
  | .txfrm _ db => some db
  | .tenc _ => none
  | .tbpl1 _ => none
  | .tbpl2 _ => none
  | .tpxg _ => none
  | .tpxgB1 _ => none
  | .tpxgB2 _ => none
  | .tpxs _ => none
  | .lzcA => none
  | .lzcB => none

/-- The bank a command writes in part, and never builds (10_state.md R40, right column). -/
def patchedBank : Instr → Option Nat
  | .tdecP4 _ _ => none
  | .tdecP2 _ _ => none
  | .tnewP4 _ _ => none
  | .tnewP2 _ _ => none
  | .txrng _ _ => none
  | .txrct _ _ => none
  | .txfrm _ _ => none
  | .tenc _ => none
  | .tbpl1 sb => some sb
  | .tbpl2 sb => some sb
  | .tpxg _ => none
  | .tpxgB1 sb => some sb
  | .tpxgB2 sb => some sb
  | .tpxs db => some db
  | .lzcA => none
  | .lzcB => none

/-- Registers that take the value the host writes and act on nothing else (10_state.md R20, access RW, less CTRL and
CMD, and less BANK_SEL, whose upper bits are reserved). -/
def plainReg : Reg → Bool
  | .srcAddr => true
  | .srcLen => true
  | .dstAddr => true
  | .dstCap => true
  | .arg0 => true
  | .arg1 => true
  | .arg2 => true
  | .arg3 => true
  | .frameW => true
  | .frameH => true
  | .palInSize => true
  | .palIn _ => true
  | _ => false

/-- Locations whose writes are ignored: access R (10_state.md R20) and reserved (R37). -/
def readOnlyReg : Reg → Bool
  | .result => true
  | .dstLen => true
  | .errInfo0 => true
  | .errInfo1 => true
  | .bankDesc => true
  | .bankWt => true
  | .bankHt => true
  | .reserved => true
  | .bankPal _ => true
  | _ => false

/-- The input bytes one token stands for (44_lzss.md R191, R192). -/
def Token.span : Token → Nat
  | .literal _ => 1
  | .copy len _ => len

/-- The input bytes a list of tokens stands for: the position of the token that follows them (R186). -/
def consumed (ts : List Token) : Nat := (ts.map Token.span).sum

/-- The `l` bytes of `b` at `q` equal the `l` bytes at `p`, all of them inside `b` (44_lzss.md R192). -/
def bytesAgree (b : List Byte) (q p l : Nat) : Prop :=
  p + l ≤ b.length ∧ ∀ i < l, b[q + i]? = b[p + i]?

end Sys2Proof.Machine
end

