-- ==== Sys2Proof/Certificates/Slice0/Obligations.lean ====
section
/-! DEFINITION. The statements for the provers. OBLIGATIONS.json lists them with the rules they rest on. In every statement
about one command, `s` is the state the command runs on, after acceptance; `CommandWriteRunsItsInstruction` joins it
to a step. -/

open Sys2Proof Sys2Proof.Machine

/-! ### Encoding -/

/-- Words written out from R81, R82, R86, R89 and the vectors of 95_test_vectors.md decode to what they stand for. -/
def Obligations.SpecWordsDecode : Prop :=
  decode 0x00000001 = .ok (.tdecP4 0 .rowMajor) ∧
  decode 0x00031001 = .ok (.tdecP2 1 .colMajor) ∧
  decode 0x00000102 = .ok (.tenc 1) ∧
  decode 0x00022003 = .ok (.tnewP4 2 .colMajor) ∧
  decode 0x00010003 = .ok (.tnewP2 0 .rowMajor) ∧
  decode 0x00001004 = .ok (.txrng 0 1) ∧
  decode 0x00002005 = .ok (.txrct 0 2) ∧
  decode 0x00001006 = .ok (.txfrm 0 1) ∧
  decode 0x00040007 = .ok (.tbpl1 0) ∧
  decode 0x00080007 = .ok (.tbpl2 0) ∧
  decode 0x00000108 = .ok (.tpxg 1) ∧
  decode 0x00040108 = .ok (.tpxgB1 1) ∧
  decode 0x00080108 = .ok (.tpxgB2 1) ∧
  decode 0x00000009 = .ok (.tpxs 0) ∧
  decode 0x00100010 = .ok .lzcA ∧
  decode 0x00110010 = .ok .lzcB ∧
  (decode 0x00000000).toOption = none ∧
  (decode 0x00100002).toOption = none ∧
  (decode 0x00120010).toOption = none ∧
  (decode 0x000C0008).toOption = none

/-- R86, R89: the command word of every well-formed command decodes to it, whatever its bank numbers and flag. -/
def Obligations.EncodedCommandDecodesToItself : Prop :=
  ∀ i : Instr, i.wf = true → decode (encode i) = .ok i

/-- R87: a word that decodes is exactly the command word of the command it decodes to, which is well-formed. -/
def Obligations.DecodedWordIsTheCommandWord : Prop :=
  ∀ (w : Word) (i : Instr), decode w = .ok i → i.wf = true ∧ encode i = w

/-- R86: "The rows are pairwise disjoint: no word matches two rows." -/
def Obligations.NoWordSelectsTwoRows : Prop :=
  ∀ (w : Word) (i j : Fin opRows.length), opRows[i].selects w = true → opRows[j].selects w = true → i = j

/-! ### Running a command -/

/-- R28, R32: a write of a word to CMD while BUSY = 0 is accepted, and the step runs the instruction it decodes to on
the accepted state. -/
def Obligations.CommandWriteRunsItsInstruction : Prop :=
  ∀ (s : State) (w : Word) (i : Instr) (rest : List HostAction),
    s.busy = false → s.host = .writeReg 0x08 w :: rest → decode w = .ok i →
    step s = exec i { s with host := rest, cmd := w, busy := true, done := false, err := false, errCode := .none,
                             errInfo0 := 0, errInfo1 := 0 }

/-- R221: an illegal word is accepted and ends in E_ILLEGAL(w, 0), with CMD holding it and nothing else changed. -/
def Obligations.IllegalWordEndsInIllegal : Prop :=
  ∀ (s : State) (w : Word) (rest : List HostAction),
    s.busy = false → s.host = .writeReg 0x08 w :: rest → (decode w).toOption = none →
    step s = .next { s with host := rest, cmd := w, done := false, err := true, errCode := .illegal,
                            errInfo0 := w, errInfo1 := 0 }

/-- R28, R231, R274: every word written to CMD while BUSY = 0 runs to an end: BUSY is 0, exactly one of DONE and ERR is
set, DONE leaves ERRCODE and both information words 0, ERR goes with a code, and CMD holds the word. A write to CMD
while BUSY = 1 is ignored. -/
def Obligations.EveryCommandRunsToItsEnd : Prop :=
  (∀ (s : State) (w : Word) (rest : List HostAction),
    s.busy = true → s.host = .writeReg 0x08 w :: rest → step s = .next { s with host := rest }) ∧
  ∀ (s : State) (w : Word) (rest : List HostAction),
    s.busy = false → s.host = .writeReg 0x08 w :: rest →
    ∃ t, step s = .next t ∧ t.busy = false ∧ t.done = !t.err ∧ t.cmd = w ∧ t.host = rest ∧
      (t.done = true → t.errCode = .none ∧ t.errInfo0 = 0 ∧ t.errInfo1 = 0) ∧
      (t.err = true → t.errCode ≠ .none)

/-- R237: the state after an error equals the state before the CMD write except STATUS, the information words and
CMD. -/
def Obligations.FailedCommandChangesNothingElse : Prop :=
  ∀ (s t : State) (w : Word) (rest : List HostAction),
    s.busy = false → s.host = .writeReg 0x08 w :: rest → step s = .next t → t.err = true →
    t = { s with host := rest, cmd := w, done := false, err := true, errCode := t.errCode, errInfo0 := t.errInfo0,
                 errInfo1 := t.errInfo1 }

/-- R232: the error reported is the first that fails in the order of the operation's checks, an illegal word before any;
with none failing the command completes. -/
def Obligations.FirstFailingCheckIsReported : Prop :=
  (∀ (w : Word) (s : State), (decode w).toOption = none →
    ∃ t, runCommand w s = .next t ∧ t.err = true ∧ t.errCode = .illegal) ∧
  ∀ (i : Instr) (s : State), firstFailing s (exec i s)
    (∃ t, exec i s = .next t ∧ t.busy = false ∧ t.done = true ∧ t.err = false ∧ t.errCode = s.errCode ∧
      t.errInfo0 = s.errInfo0 ∧ t.errInfo1 = s.errInfo1) (checks i s)

/-! ### Reset -/

/-- R51: after reset every register reads 0, no bank is valid, the irq output is 0, and MEM is unspecified: each byte is
the free value. -/
def Obligations.ResetReadsZero : Prop :=
  (∀ r : Reg, State.reset.readReg r = 0) ∧ (∀ b, State.reset.raster b = none) ∧ State.reset.irq = false ∧
    ∀ a, State.reset.memByte a = Config.powerOnByte 0 a

/-- R260, R262: the reset input leaves every register reading 0 and every bank invalid, and every byte of MEM is again
unspecified. That it may change MEM at all (log 5), and that assertion and release are one action (log 23), are the model's
choices. -/
def Obligations.ResetInputClearsTheBlock : Prop :=
  ∀ (s : State) (rest : List HostAction), s.host = .reset :: rest →
    ∃ t, step s = .next t ∧ (∀ r : Reg, t.readReg r = 0) ∧ (∀ b, t.raster b = none) ∧ t.nbanks = s.nbanks ∧
      t.irq = false ∧ (∀ a, t.memByte a = Config.powerOnByte (s.epoch + 1) a) ∧ t.cfg = s.cfg ∧ t.host = rest

/-- R263: writing 1 to CTRL.SRST while BUSY = 0 resets the registers and the banks, discards the other bits, and keeps
MEM. -/
def Obligations.SoftResetKeepsMemory : Prop :=
  ∀ (s : State) (v : Word) (rest : List HostAction),
    s.busy = false → s.host = .writeReg 0x00 v :: rest → v.getLsbD 1 = true →
    ∃ t, step s = .next t ∧ (∀ r : Reg, t.readReg r = 0) ∧ (∀ b, t.raster b = none) ∧ t.nbanks = s.nbanks ∧
      t.irq = false ∧ (∀ a, t.memByte a = s.memByte a) ∧ t.cfg = s.cfg ∧ t.host = rest

/-! ### Invariants -/

/-- The invariant holds at reset. -/
def Obligations.ResetMeetsTheInvariant : Prop := State.reset.Inv

/-- R28, R31, R39, R44, R151: every step keeps the invariant: the status, MEM in canonical form and in range, and every
bank's geometry, palette size, samples in range and cached planes equal to the recomputed ones. -/
def Obligations.StepKeepsTheInvariant : Prop :=
  ∀ s t : State, s.Inv → step s = .next t → t.Inv

/-- R264: NBANKS, BANK_TILES, MEM_SIZE and LZ_TIE are fixed when the hardware is built. -/
def Obligations.StepKeepsTheConfiguration : Prop :=
  ∀ s t : State, step s = .next t → t.cfg = s.cfg ∧ t.nbanks = s.nbanks

/-- R46: no command makes a bank invalid again. -/
def Obligations.CommandsKeepBanksValid : Prop :=
  ∀ (i : Instr) (s t : State) (b : Nat), exec i s = .next t → s.raster b ≠ none → t.raster b ≠ none

/-- R151: every command that builds a bank or writes a sample of it leaves it with no cached plane when it completes;
no command drops a cached plane otherwise. -/
def Obligations.PlaneCacheIsDroppedExactlyByWriters : Prop :=
  ∀ (i : Instr) (s t : State), exec i s = .next t → t.done = true → s.done = false →
    (∀ b, (builtBank i = some b ∨ i = .tpxs b) → ∃ r, t.raster b = some r ∧ r.bp1 = none ∧ r.bp2 = none) ∧
    (∀ b r, ¬ (builtBank i = some b ∨ i = .tpxs b) → s.raster b = some r →
      ∃ r', t.raster b = some r' ∧ (r.bp1.isSome → r'.bp1 = r.bp1) ∧ (r.bp2.isSome → r'.bp2 = r.bp2))

/-! ### Frames: what a command leaves unchanged, however it ends -/

/-- R40, R109, R112, R160: TDEC, TNEW, TXRNG, TXRCT, TXFRM change STATUS, the information words and bank DB only. -/
def Obligations.BuildersFrame : Prop :=
  ∀ (i : Instr) (s t : State) (db : Nat), builtBank i = some db → exec i s = .next t →
    t = { s with busy := false, done := t.done, err := t.err, errCode := t.errCode, errInfo0 := t.errInfo0,
                 errInfo1 := t.errInfo1, banks := t.banks } ∧
    t.nbanks = s.nbanks ∧ (∀ b, b ≠ db → t.raster b = s.raster b) ∧ (∀ a, t.memByte a = s.memByte a) ∧
    (t.err = false → t.errCode = s.errCode ∧ t.errInfo0 = s.errInfo0 ∧ t.errInfo1 = s.errInfo1)

/-- R40, R116, R147, R149: TPXS, TBPL and TPXG.B change STATUS, the information words, a part of the one bank they name
and, for TPXG.B, RESULT; the bank keeps its variant, flag, geometry and palette, and for TBPL and TPXG.B its samples. -/
def Obligations.BankPatchersFrame : Prop :=
  ∀ (i : Instr) (s t : State) (n : Nat), patchedBank i = some n → exec i s = .next t →
    t = { s with busy := false, done := t.done, err := t.err, errCode := t.errCode, errInfo0 := t.errInfo0,
                 errInfo1 := t.errInfo1, banks := t.banks, result := t.result } ∧
    (t.result = s.result ∨ i = .tpxgB1 n ∨ i = .tpxgB2 n) ∧
    t.nbanks = s.nbanks ∧ (∀ b, b ≠ n → t.raster b = s.raster b) ∧ (∀ a, t.memByte a = s.memByte a) ∧
    (∀ r, s.raster n = some r → ∃ r', t.raster n = some r' ∧ r'.variant = r.variant ∧ r'.order = r.order ∧
      r'.wt = r.wt ∧ r'.ht = r.ht ∧ r'.pal = r.pal ∧ (r'.samples = r.samples ∨ i = .tpxs n) ∧
      (i = .tbpl1 n ∨ i = .tpxgB1 n → r'.bp2 = r.bp2) ∧ (i = .tbpl2 n ∨ i = .tpxgB2 n → r'.bp1 = r.bp1)) ∧
    (t.err = false → t.errCode = s.errCode ∧ t.errInfo0 = s.errInfo0 ∧ t.errInfo1 = s.errInfo1)

/-- R114: TPXG changes STATUS, the information words and RESULT only. -/
def Obligations.PixelGetFrame : Prop :=
  ∀ (sb : Nat) (s t : State), exec (.tpxg sb) s = .next t →
    t = { s with busy := false, done := t.done, err := t.err, errCode := t.errCode, errInfo0 := t.errInfo0,
                 errInfo1 := t.errInfo1, result := t.result } ∧
    (t.err = true → t.result = s.result) ∧
    (t.err = false → t.errCode = s.errCode ∧ t.errInfo0 = s.errInfo0 ∧ t.errInfo1 = s.errInfo1)

/-- R110: TENC changes STATUS, the information words, DST_LEN, and the `WT*HT*BPT` bytes of MEM at DST_ADDR only, and
those two only when it completes. -/
def Obligations.EncodeFrame : Prop :=
  ∀ (sb : Nat) (s t : State), exec (.tenc sb) s = .next t →
    t = { s with busy := false, done := t.done, err := t.err, errCode := t.errCode, errInfo0 := t.errInfo0,
                 errInfo1 := t.errInfo1, mem := t.mem, dstLen := t.dstLen } ∧
    (t.err = true → t.dstLen = s.dstLen ∧ ∀ a, t.memByte a = s.memByte a) ∧
    (t.err = false → t.errCode = s.errCode ∧ t.errInfo0 = s.errInfo0 ∧ t.errInfo1 = s.errInfo1) ∧
    (∀ r, s.raster sb = some r → ∀ a,
      a < s.dstAddr.toNat ∨
        s.dstAddr.toNat + r.wt.toNat * r.ht.toNat * bytesPerTile r.variant ≤ a → t.memByte a = s.memByte a)

/-- R206: LZC.A and LZC.B change STATUS, the information words, DST_LEN, and the bytes of the compressed stream at DST_ADDR
only, and those two only when they complete. -/
def Obligations.CompressFrame : Prop :=
  ∀ (i : Instr) (v : LzVariant) (s t : State), (i = .lzcA ∧ v = .a) ∨ (i = .lzcB ∧ v = .b) → exec i s = .next t →
    t = { s with busy := false, done := t.done, err := t.err, errCode := t.errCode, errInfo0 := t.errInfo0,
                 errInfo1 := t.errInfo1, mem := t.mem, dstLen := t.dstLen } ∧
    (t.err = true → t.dstLen = s.dstLen ∧ ∀ a, t.memByte a = s.memByte a) ∧
    (t.err = false → t.errCode = s.errCode ∧ t.errInfo0 = s.errInfo0 ∧ t.errInfo1 = s.errInfo1) ∧
    (∀ a, a < s.dstAddr.toNat ∨ s.dstAddr.toNat + (s.compressed v).length ≤ a → t.memByte a = s.memByte a)

/-! ### Results: each command completes, and with what -/

/-- R109, R133, R143: TDEC.P4 and TDEC.P2 complete with bank DB built from the source buffer, whatever its length: the
palette padded to the 16 or 4 entries of R108, the geometry, variant and flag stored, no plane cached. -/
def Obligations.DecodeBuildsTheBank : Prop :=
  (palMax .packed4bpp = 16 ∧ palMax .planar2bpp = 4) ∧
  ∀ (i : Instr) (v : Variant) (db : Nat) (c : Traversal) (s : State),
    (i = .tdecP4 db c ∧ v = .packed4bpp) ∨ (i = .tdecP2 db c ∧ v = .planar2bpp) →
    db < s.nbanks → s.palInSize.toNat ≤ palMax v → 1 ≤ s.arg0.toNat → 1 ≤ s.arg1.toNat →
    s.arg0.toNat * s.arg1.toNat ≤ s.cfg.bankTiles → s.srcAddr.toNat + s.srcLen.toNat ≤ s.cfg.memSize →
    ∃ pal, exec i s = .next { s with
        busy := false, done := true, err := false
        banks := s.banks.set db (some
          { variant := v, order := c, wt := s.arg0, ht := s.arg1, pal := pal, bp1 := none, bp2 := none
            samples := decodeGrid (s.memRead s.srcAddr.toNat s.srcLen.toNat) s.arg0.toNat s.arg1.toNat v c }) } ∧
      pal.length = palMax v ∧ (∀ k : Fin 16, k.val < s.palInSize.toNat → pal[k.val]? = some s.palIn[k]) ∧
      (∀ k, s.palInSize.toNat ≤ k → k < palMax v → pal[k]? = some 0)

/-- R112, R134, R144: TNEW.P4 and TNEW.P2 complete with bank DB a raster of zero samples, its palette padded to the 16 or 4
entries of R108. -/
def Obligations.NewBuildsABlankBank : Prop :=
  (palMax .packed4bpp = 16 ∧ palMax .planar2bpp = 4) ∧
  ∀ (i : Instr) (v : Variant) (db : Nat) (c : Traversal) (s : State),
    (i = .tnewP4 db c ∧ v = .packed4bpp) ∨ (i = .tnewP2 db c ∧ v = .planar2bpp) →
    db < s.nbanks → s.palInSize.toNat ≤ palMax v → 1 ≤ s.arg0.toNat → 1 ≤ s.arg1.toNat →
    s.arg0.toNat * s.arg1.toNat ≤ s.cfg.bankTiles →
    ∃ pal, exec i s = .next { s with
        busy := false, done := true, err := false
        banks := s.banks.set db (some
          { variant := v, order := c, wt := s.arg0, ht := s.arg1, pal := pal, bp1 := none, bp2 := none
            samples := List.replicate (8 * s.arg0.toNat * (8 * s.arg1.toNat)) 0 }) } ∧
      pal.length = palMax v ∧ (∀ k : Fin 16, k.val < s.palInSize.toNat → pal[k.val]? = some s.palIn[k]) ∧
      (∀ k, s.palInSize.toNat ≤ k → k < palMax v → pal[k]? = some 0)

/-- R110: TENC completes with the encoded tiles at DST_ADDR and their number of bytes in DST_LEN. -/
def Obligations.EncodeWritesTheTiles : Prop :=
  ∀ (sb : Nat) (s : State) (r : Raster), s.raster sb = some r →
    s.dstAddr.toNat + s.dstCap.toNat ≤ s.cfg.memSize →
    r.wt.toNat * r.ht.toNat * bytesPerTile r.variant ≤ s.dstCap.toNat →
    ∃ t, exec (.tenc sb) s = .next t ∧ t.busy = false ∧ t.done = true ∧ t.err = false ∧
      t.dstLen.toNat = r.wt.toNat * r.ht.toNat * bytesPerTile r.variant ∧
      t.memRead s.dstAddr.toNat (r.wt.toNat * r.ht.toNat * bytesPerTile r.variant) =
        encodeGrid r.samples r.wt.toNat r.ht.toNat r.variant r.order

/-- R160, R162: TXRNG completes with a one-row raster in bank DB: tile `k` is the source tile of traversal index
`from + k`; variant, palette and flag are the source's. -/
def Obligations.RangeExtractsTiles : Prop :=
  ∀ (sb db : Nat) (s : State) (r : Raster), s.raster sb = some r → db < s.nbanks → sb ≠ db →
    s.arg0.toNat < s.arg1.toNat → s.arg1.toNat ≤ r.wt.toNat * r.ht.toNat →
    ∃ d : Raster, exec (.txrng sb db) s = .next
        { s with busy := false, done := true, err := false, banks := s.banks.set db (some d) } ∧
      d.variant = r.variant ∧ d.order = r.order ∧ d.pal = r.pal ∧ d.bp1 = none ∧ d.bp2 = none ∧
      d.wt.toNat = s.arg1.toNat - s.arg0.toNat ∧ d.ht = 1 ∧ d.samples.length = 8 * d.wt.toNat * 8 ∧
      ∀ k x y, k < d.wt.toNat → x < 8 → y < 8 →
        d.sample (8 * k + x) y =
          r.sample (8 * (tilePos (s.arg0.toNat + k) r.wt.toNat r.ht.toNat r.order).1 + x)
            (8 * (tilePos (s.arg0.toNat + k) r.wt.toNat r.ht.toNat r.order).2 + y)

/-- R160, R164: TXRCT completes with the rectangle of tiles in bank DB, copied by position. -/
def Obligations.RectangleExtractsTiles : Prop :=
  ∀ (sb db : Nat) (s : State) (r : Raster), s.raster sb = some r → db < s.nbanks → sb ≠ db →
    1 ≤ s.arg2.toNat → 1 ≤ s.arg3.toNat → s.arg0.toNat + s.arg2.toNat ≤ r.wt.toNat →
    s.arg1.toNat + s.arg3.toNat ≤ r.ht.toNat →
    ∃ d : Raster, exec (.txrct sb db) s = .next
        { s with busy := false, done := true, err := false, banks := s.banks.set db (some d) } ∧
      d.variant = r.variant ∧ d.order = r.order ∧ d.pal = r.pal ∧ d.bp1 = none ∧ d.bp2 = none ∧
      d.wt = s.arg2 ∧ d.ht = s.arg3 ∧ d.samples.length = 8 * d.wt.toNat * (8 * d.ht.toNat) ∧
      ∀ x y, x < 8 * d.wt.toNat → y < 8 * d.ht.toNat →
        d.sample x y = r.sample (8 * s.arg0.toNat + x) (8 * s.arg1.toNat + y)

/-- R160, R165: TXFRM completes with frame ARG0 in bank DB: frames of FRAME_W x FRAME_H tiles, left to right, then down. -/
def Obligations.FrameExtractsTiles : Prop :=
  ∀ (sb db fpr fpc fx fy : Nat) (s : State) (r : Raster), s.raster sb = some r → db < s.nbanks → sb ≠ db →
    1 ≤ s.frameW.toNat → 1 ≤ s.frameH.toNat →
    r.wt.toNat = fpr * s.frameW.toNat → r.ht.toNat = fpc * s.frameH.toNat →
    s.arg0.toNat = fy * fpr + fx → fx < fpr → fy < fpc →
    ∃ d : Raster, exec (.txfrm sb db) s = .next
        { s with busy := false, done := true, err := false, banks := s.banks.set db (some d) } ∧
      d.variant = r.variant ∧ d.order = r.order ∧ d.pal = r.pal ∧ d.bp1 = none ∧ d.bp2 = none ∧
      d.wt = s.frameW ∧ d.ht = s.frameH ∧ d.samples.length = 8 * d.wt.toNat * (8 * d.ht.toNat) ∧
      ∀ x y, x < 8 * d.wt.toNat → y < 8 * d.ht.toNat →
        d.sample x y = r.sample (8 * (fx * s.frameW.toNat) + x) (8 * (fy * s.frameH.toNat) + y)

/-- R147, R148, R150: TBPL.1 and TBPL.2 complete on a planar bank: a plane that is not cached is computed from the samples
and cached, a cached one stays, and the other plane is not touched. -/
def Obligations.PlaneCommandFillsTheCache : Prop :=
  ∀ (sb : Nat) (s : State) (r : Raster), s.raster sb = some r → r.variant = .planar2bpp →
    exec (.tbpl1 sb) s = .next { s with
      busy := false, done := true, err := false
      banks := s.banks.set sb (some { r with
        bp1 := some (r.bp1.getD (r.samples.map fun v => v.extractLsb' 0 1)) }) } ∧
    exec (.tbpl2 sb) s = .next { s with
      busy := false, done := true, err := false
      banks := s.banks.set sb (some { r with
        bp2 := some (r.bp2.getD (r.samples.map fun v => v.extractLsb' 1 1)) }) }

/-- R114: TPXG completes with the sample at (ARG0, ARG1) in RESULT, zero-extended. -/
def Obligations.PixelGetReturnsTheSample : Prop :=
  ∀ (sb : Nat) (s : State) (r : Raster) (v : Sample), s.raster sb = some r →
    s.arg0.toNat < 8 * r.wt.toNat → s.arg1.toNat < 8 * r.ht.toNat →
    r.samples[s.arg1.toNat * (8 * r.wt.toNat) + s.arg0.toNat]? = some v →
    exec (.tpxg sb) s = .next { s with busy := false, done := true, err := false, result := v.setWidth 32 }

/-- R149, R153 with R151: on a proper planar bank TPXG.B1 and TPXG.B2 complete with bit 0 and bit 1 of the sample at
(ARG0, ARG1) in RESULT, cached or not. -/
def Obligations.PlaneGetReturnsTheSampleBit : Prop :=
  ∀ (sb : Nat) (s : State) (r : Raster), s.raster sb = some r → r.Ok s.cfg → r.variant = .planar2bpp →
    s.arg0.toNat < 8 * r.wt.toNat → s.arg1.toNat < 8 * r.ht.toNat →
    (∃ t d, exec (.tpxgB1 sb) s = .next t ∧ t.busy = false ∧ t.done = true ∧ t.err = false ∧
      t.result.toNat = (r.sample s.arg0.toNat s.arg1.toNat).toNat % 2 ∧ t.raster sb = some d ∧ d.bp1.isSome) ∧
    (∃ t d, exec (.tpxgB2 sb) s = .next t ∧ t.busy = false ∧ t.done = true ∧ t.err = false ∧
      t.result.toNat = (r.sample s.arg0.toNat s.arg1.toNat).toNat / 2 ∧ t.raster sb = some d ∧ d.bp2.isSome)

/-- R116: TPXS completes with one sample of bank DB set, every other sample as before, and both planes dropped; the value
is below 16 or, on a planar bank, 4. -/
def Obligations.PixelSetWritesOneSample : Prop :=
  (sampleLimit .packed4bpp = 16 ∧ sampleLimit .planar2bpp = 4) ∧
  ∀ (db : Nat) (s : State) (r : Raster), s.raster db = some r → r.Ok s.cfg →
    s.arg0.toNat < 8 * r.wt.toNat → s.arg1.toNat < 8 * r.ht.toNat → s.arg2.toNat < sampleLimit r.variant →
    ∃ d : Raster, exec (.tpxs db) s = .next
        { s with busy := false, done := true, err := false, banks := s.banks.set db (some d) } ∧
      d = { r with samples := d.samples, bp1 := none, bp2 := none } ∧
      (d.sample s.arg0.toNat s.arg1.toNat).toNat = s.arg2.toNat ∧
      ∀ x y, x < 8 * r.wt.toNat → y < 8 * r.ht.toNat → (x, y) ≠ (s.arg0.toNat, s.arg1.toNat) →
        d.sample x y = r.sample x y

/-- R204, R205, R206: LZC.A and LZC.B complete with the compressed stream at DST_ADDR and its length in DST_LEN. -/
def Obligations.CompressWritesTheStream : Prop :=
  ∀ (i : Instr) (v : LzVariant) (s : State), (i = .lzcA ∧ v = .a) ∨ (i = .lzcB ∧ v = .b) →
    s.srcAddr.toNat + s.srcLen.toNat ≤ s.cfg.memSize → s.dstAddr.toNat + s.dstCap.toNat ≤ s.cfg.memSize →
    (s.srcLen.toNat = 0 ∨ s.dstCap.toNat = 0 ∨ s.dstAddr.toNat + s.dstCap.toNat ≤ s.srcAddr.toNat ∨
      s.srcAddr.toNat + s.srcLen.toNat ≤ s.dstAddr.toNat) →
    (s.compressed v).length ≤ s.dstCap.toNat →
    ∃ t, exec i s = .next t ∧ t.busy = false ∧ t.done = true ∧ t.err = false ∧
      t.dstLen.toNat = (s.compressed v).length ∧
      t.memRead s.dstAddr.toNat (s.compressed v).length = s.compressed v

/-! ### The tile grid and the tile formats -/

/-- R100, R101: the tile positions are visited once each, with the inverse R101 gives. -/
def Obligations.TileWalkIsABijection : Prop :=
  ∀ (wt ht : Nat) (c : Traversal), 1 ≤ wt → 1 ≤ ht →
    (∀ t, t < wt * ht → (tilePos t wt ht c).1 < wt ∧ (tilePos t wt ht c).2 < ht ∧
      (match c with
        | .rowMajor => (tilePos t wt ht c).2 * wt + (tilePos t wt ht c).1
        | .colMajor => (tilePos t wt ht c).1 * ht + (tilePos t wt ht c).2) = t) ∧
    (∀ x y, x < wt → y < ht →
      (match c with | .rowMajor => y * wt + x | .colMajor => x * ht + y) < wt * ht ∧
      tilePos (match c with | .rowMajor => y * wt + x | .colMajor => x * ht + y) wt ht c = (x, y))

/-- R130, R140: the unpacking formulas and their examples. -/
def Obligations.UnpackReadsTheRightBits : Prop :=
  (∀ (t : List Byte) (r c : Nat) (b : Byte), r < 8 → c < 8 → t[4 * r + c / 2]? = some b →
    (unpack4 t r c).toNat = if c % 2 = 0 then b.toNat % 16 else b.toNat / 16) ∧
  (∀ (t : List Byte) (r c : Nat) (lo hi : Byte), r < 8 → c < 8 → t[2 * r]? = some lo → t[2 * r + 1]? = some hi →
    (unpack2 t r c).toNat = 2 * (hi.toNat / 2 ^ (7 - c) % 2) + lo.toNat / 2 ^ (7 - c) % 2) ∧
  (List.range 8).map (unpack4 [0x10, 0x32, 0x54, 0x76] 0) = [0, 1, 2, 3, 4, 5, 6, 7] ∧
  (List.range 8).map (unpack2 [0xA5, 0x3C] 0) = [1, 0, 3, 2, 2, 3, 0, 1]

/-- R132: `pack4` and `unpack4` are mutual inverses. -/
def Obligations.PackedTileRoundTrip : Prop :=
  (∀ t : List Byte, t.length = 32 → pack4 (unpack4 t) = t) ∧
  (∀ (tile : Nat → Nat → Sample) (r c : Nat), r < 8 → c < 8 → unpack4 (pack4 tile) r c = tile r c)

/-- R142: `pack2` and `unpack2` are mutual inverses. -/
def Obligations.PlanarTileRoundTrip : Prop :=
  (∀ t : List Byte, t.length = 16 → pack2 (unpack2 t) = t) ∧
  (∀ (tile : Nat → Nat → Sample), (∀ r c, r < 8 → c < 8 → (tile r c).toNat < 4) →
    ∀ r c, r < 8 → c < 8 → unpack2 (pack2 tile) r c = tile r c)

/-- R104, R105: tile `t` of the buffer lands at tile position `tilepos(t)`, sample by sample; tiles past the available ones
are 0; bytes past the available tiles are not read. -/
def Obligations.DecodePlacesTheAvailableTiles : Prop :=
  ∀ (b : List Byte) (wt ht : Nat) (v : Variant) (c : Traversal), 1 ≤ wt → 1 ≤ ht →
    let avail := min (b.length / bytesPerTile v) (wt * ht)
    let g := decodeGrid b wt ht v c
    g.length = 8 * wt * (8 * ht) ∧
    (∀ t row col, t < wt * ht → row < 8 → col < 8 →
      g[(8 * (tilePos t wt ht c).2 + row) * (8 * wt) + (8 * (tilePos t wt ht c).1 + col)]? =
        some (if t < avail then
          unpack v ((b.drop (t * bytesPerTile v)).take (bytesPerTile v)) row col else 0)) ∧
    decodeGrid (b.take (avail * bytesPerTile v)) wt ht v c = g

/-- R102, R106: tile `t` of the output is the packed tile at tile position `tilepos(t)`. -/
def Obligations.EncodeEmitsEveryTileInOrder : Prop :=
  ∀ (g : List Sample) (wt ht t : Nat) (v : Variant) (c : Traversal), t < wt * ht →
    ((encodeGrid g wt ht v c).drop (t * bytesPerTile v)).take (bytesPerTile v) =
      pack v fun row col =>
        g.getD ((8 * (tilePos t wt ht c).2 + row) * (8 * wt) + (8 * (tilePos t wt ht c).1 + col)) 0

/-- R107: the encoded length, with the 32 or 16 bytes per tile of R102, and that it fits DST_LEN. -/
def Obligations.EncodedLength : Prop :=
  (bytesPerTile .packed4bpp = 32 ∧ bytesPerTile .planar2bpp = 16) ∧
  ∀ (g : List Sample) (wt ht : Nat) (v : Variant) (c : Traversal),
    (encodeGrid g wt ht v c).length = wt * ht * bytesPerTile v ∧
    ∀ bankTiles, wt * ht ≤ bankTiles → (encodeGrid g wt ht v c).length ≤ 32 * bankTiles ∧
      (bankTiles < 2 ^ 27 → (encodeGrid g wt ht v c).length < 2 ^ 32)

/-- R111: decoding what encoding gave returns the raster, pixel for pixel and, with the palette it was read with, palette
for palette; and encoding what decoding gave returns the buffer. -/
def Obligations.EncodeDecodeRoundTrip : Prop :=
  (∀ (cfg : Config) (r : Raster), r.Ok cfg →
    decodeGrid (encodeGrid r.samples r.wt.toNat r.ht.toNat r.variant r.order) r.wt.toNat r.ht.toNat r.variant r.order
      = r.samples) ∧
  (∀ (cfg : Config) (r : Raster) (s : State), r.Ok cfg → s.palInSize.toNat = palMax r.variant →
    (∀ k : Fin 16, k.val < palMax r.variant → r.pal[k.val]? = some s.palIn[k]) →
    s.loadedPalette r.variant = r.pal) ∧
  (∀ (b : List Byte) (wt ht : Nat) (v : Variant) (c : Traversal), 1 ≤ wt → 1 ≤ ht →
    b.length = wt * ht * bytesPerTile v → encodeGrid (decodeGrid b wt ht v c) wt ht v c = b)

/-- R163: on a one-row raster the two traversals coincide, so the flag changes neither the encoding nor a range. -/
def Obligations.OneRowTraversalsCoincide : Prop :=
  (∀ t wt c, t < wt → tilePos t wt 1 c = (t, 0)) ∧
  (∀ (g : List Sample) (wt : Nat) (v : Variant) (c d : Traversal), encodeGrid g wt 1 v c = encodeGrid g wt 1 v d) ∧
  (∀ (r : Raster) (c : Traversal) (lo n : Nat), r.ht = 1 → lo + n ≤ r.wt.toNat →
    ({ r with order := c }).rangeSamples lo n = r.rangeSamples lo n)

/-- R166: TXFRM with a legal index builds what TXRCT builds on the frame's rectangle, which passes TXRCT's checks. -/
def Obligations.FrameIsARectangle : Prop :=
  ∀ (sb db : Nat) (s t u : State) (r : Raster), s.raster sb = some r → exec (.txfrm sb db) s = .next t → t.err = false →
    u = { s with
      arg0 := BitVec.ofNat 32 (s.arg0.toNat % (r.wt.toNat / s.frameW.toNat) * s.frameW.toNat)
      arg1 := BitVec.ofNat 32 (s.arg0.toNat / (r.wt.toNat / s.frameW.toNat) * s.frameH.toNat)
      arg2 := s.frameW, arg3 := s.frameH } →
    u.arg0.toNat + u.arg2.toNat ≤ r.wt.toNat ∧ u.arg1.toNat + u.arg3.toNat ≤ r.ht.toNat ∧
    exec (.txrct sb db) u =
      .next { t with arg0 := u.arg0, arg1 := u.arg1, arg2 := u.arg2, arg3 := u.arg3 }

/-- R162 with R102, R163 (95_test_vectors.md T6): encoding an extracted tile range gives the run of the source's encoding
that the range names, whichever traversal the source has. -/
def Obligations.TileRangeIsARunOfTheBuffer : Prop :=
  ∀ (r : Raster) (lo hi : Nat) (c : Traversal), 1 ≤ r.wt.toNat → 1 ≤ r.ht.toNat → lo < hi →
    hi ≤ r.wt.toNat * r.ht.toNat →
    encodeGrid (r.rangeSamples lo (hi - lo)) (hi - lo) 1 r.variant c =
      ((encodeGrid r.samples r.wt.toNat r.ht.toNat r.variant r.order).drop (lo * bytesPerTile r.variant)).take
        ((hi - lo) * bytesPerTile r.variant)

/-! ### The compressor -/

/-- R187, R196: `findMatch` returns a longest match among the displacements 1 to min(p, 4096), capped by MAXLEN and the end
of the input; among equals the largest displacement (FARTHEST) or the smallest (NEAREST). -/
def Obligations.MatchSearchFindsTheLongest : Prop :=
  ∀ (tie : LzTie) (b : List Byte) (p maxLen : Nat), p < b.length →
    let m := findMatch tie b p maxLen
    m.1 ≤ min maxLen (b.length - p) ∧
    (m.1 = 0 → m.2 = 0) ∧
    (0 < m.1 → 1 ≤ m.2 ∧ m.2 ≤ min p 4096 ∧ bytesAgree b (p - m.2) p m.1) ∧
    (∀ d l, 1 ≤ d → d ≤ min p 4096 → l ≤ min maxLen (b.length - p) → bytesAgree b (p - d) p l →
      l ≤ m.1 ∧ (l = m.1 → 0 < l → match tie with | .farthest => d ≤ m.2 | .nearest => m.2 ≤ d))

/-- R186, R197: the greedy loop. The tokens consume the input from its first byte to its last, and the token at position `p`
is the match `findMatch` gives there when its length is at least 3, else the byte there as a literal; MAXLEN is 18 for
Variant A and 0x10110 for Variant B. So (property §8.6) no match token is shorter than 3 or longer than MAXLEN, its
displacement is 1 to 4096, and an input with no repeat of 3 bytes in the window gives literals only. -/
def Obligations.MatchLengthFloor : Prop :=
  (LzVariant.a.maxLen = 18 ∧ LzVariant.b.maxLen = 0x10110) ∧
  ∀ (tie : LzTie) (b : List Byte) (v : LzVariant),
    consumed (tokens tie b v.maxLen) = b.length ∧
    (∀ k t, (tokens tie b v.maxLen)[k]? = some t →
      let p := consumed ((tokens tie b v.maxLen).take k)
      let m := findMatch tie b p v.maxLen
      3 ≤ m.1 ∧ t = .copy m.1 m.2 ∨ m.1 < 3 ∧ ∃ x, b[p]? = some x ∧ t = .literal x) ∧
    (∀ len disp, Token.copy len disp ∈ tokens tie b v.maxLen →
      3 ≤ len ∧ len ≤ v.maxLen ∧ 1 ≤ disp ∧ disp ≤ 4096) ∧
    ((∀ p d, 1 ≤ d → d ≤ min p 4096 → ¬ bytesAgree b (p - d) p 3) →
      tokens tie b v.maxLen = b.map Token.literal)

/-- R198 to R202 against R212: every match token a variant can spell is read back from its bytes, whatever follows. -/
def Obligations.TokenBytesReadBack : Prop :=
  ∀ (v : LzVariant) (len disp : Nat) (rest : List Byte), 3 ≤ len → len ≤ v.maxLen → 1 ≤ disp → disp ≤ 4096 →
    readToken v.tag true (copyBytes v len disp ++ rest) = some (.copy len disp, rest)

/-- R181: the header is the tag and the length, little-endian, in 3 bytes or, above 0xFFFFFF, in 4 bytes after 3 zeros. -/
def Obligations.HeaderHoldsTheLength : Prop :=
  ∀ (v : LzVariant) (n : Nat),
    (n ≤ 0xFFFFFF → ∃ a b c, header v n = [v.tag, a, b, c] ∧ leValue [a, b, c] = n) ∧
    (0xFFFFFF < n → n < 2 ^ 32 →
      ∃ a b c d, header v n = [v.tag, 0, 0, 0, a, b, c, d] ∧ leValue [a, b, c, d] = n)

/-- R182, R183, R184: bit `7 - k` of a group's control byte is 1 exactly when slot `k` holds a match; unused slots are 0. -/
def Obligations.ControlByteFlagsTheMatches : Prop :=
  ∀ (ts : List Token) (k : Nat), ts.length ≤ 8 → k < 8 →
    (controlByte 0 ts).getLsbD (7 - k) = match ts[k]? with
      | some (.copy _ _) => true
      | some (.literal _) => false
      | none => false

/-- R203 (document §8.7), R207, R198 to R201, and T11, T13, T15 of 95_test_vectors.md: the worked example, the empty input,
a match of length 3, nine literals in two groups, a match longer than Variant A's cap, and the token examples, byte for
byte, whatever the tie-break. -/
def Obligations.WorkedStreams : Prop :=
  ∀ tie : LzTie,
    compress tie .a [0xAA, 0xBB, 0xAA, 0xBB, 0xAA, 0xBB] = [0x10, 6, 0, 0, 0x20, 0xAA, 0xBB, 0x10, 0x01] ∧
    compress tie .b [0xAA, 0xBB, 0xAA, 0xBB, 0xAA, 0xBB] = [0x11, 6, 0, 0, 0x20, 0xAA, 0xBB, 0x30, 0x01] ∧
    compress tie .a [] = [0x10, 0, 0, 0] ∧ compress tie .b [] = [0x11, 0, 0, 0] ∧
    compress tie .a [0x41, 0x41, 0x41, 0x41] = [0x10, 4, 0, 0, 0x40, 0x41, 0x00, 0x00] ∧
    compress tie .b [0x41, 0x41, 0x41, 0x41] = [0x11, 4, 0, 0, 0x40, 0x41, 0x20, 0x00] ∧
    compress tie .a [1, 2, 3, 4, 5, 6, 7, 8, 9] = [0x10, 9, 0, 0, 0, 1, 2, 3, 4, 5, 6, 7, 8, 0, 9] ∧
    compress tie .a (List.replicate 20 0) = [0x10, 0x14, 0, 0, 0x40, 0x00, 0xF0, 0x00, 0x00] ∧
    compress tie .b (List.replicate 20 0) = [0x11, 0x14, 0, 0, 0x40, 0x00, 0x00, 0x20, 0x00] ∧
    tokenA 4 2 = [0x10, 0x01] ∧ tokenA 3 1 = [0x00, 0x00] ∧ tokenA 18 4096 = [0xFF, 0xFF] ∧
    tokenA 10 0x123 = [0x71, 0x22] ∧ tokenB 4 2 = [0x30, 0x01] ∧ tokenB 3 1 = [0x20, 0x00] ∧
    tokenB 0x10 4096 = [0xFF, 0xFF] ∧ tokenB 0x11 1 = [0x00, 0x00, 0x00] ∧ tokenB 19 1 = [0x00, 0x20, 0x00] ∧
    tokenB 0x110 4096 = [0x0F, 0xFF, 0xFF] ∧ tokenB 0x111 1 = [0x10, 0x00, 0x00, 0x00] ∧
    tokenB 299 1 = [0x10, 0x01, 0xA0, 0x00] ∧ tokenB 0x10110 4096 = [0x1F, 0xFF, 0xFF, 0xFF]

/-- R213 (property §8.5): for every input, variant and tie-break the reference decompressor returns the input. -/
def Obligations.CompressThenDecompress : Prop :=
  ∀ (tie : LzTie) (v : LzVariant) (b : List Byte), b.length ≤ 2 ^ 32 - 1 → decompress (compress tie v b) = some b

/-- R209: the size bound, and that an input with no repeat of 3 bytes in the window meets it. -/
def Obligations.CompressedSizeBound : Prop :=
  ∀ (tie : LzTie) (v : LzVariant) (b : List Byte),
    (compress tie v b).length ≤ 8 + b.length + (b.length + 7) / 8 ∧
    (b.length ≤ 0xFFFFFF → (compress tie v b).length ≤ 4 + b.length + (b.length + 7) / 8) ∧
    ((∀ p d, 1 ≤ d → d ≤ min p 4096 → ¬ bytesAgree b (p - d) p 3) →
      (compress tie v b).length =
        (if b.length ≤ 0xFFFFFF then 4 else 8) + b.length + (b.length + 7) / 8)

/-- R208: the stream and DST_LEN depend on the input bytes, the variant and LZ_TIE only: two machines that agree on these
and both complete hold the same stream at their own destinations. -/
def Obligations.CompressionDependsOnTheInputOnly : Prop :=
  ∀ (i : Instr) (s s' t t' : State), i = .lzcA ∨ i = .lzcB →
    s.cfg.lzTie = s'.cfg.lzTie →
    s.memRead s.srcAddr.toNat s.srcLen.toNat = s'.memRead s'.srcAddr.toNat s'.srcLen.toNat →
    exec i s = .next t → exec i s' = .next t' → t.err = false → t'.err = false →
    t.dstLen = t'.dstLen ∧
    t.memRead s.dstAddr.toNat t.dstLen.toNat = t'.memRead s'.dstAddr.toNat t'.dstLen.toNat

/-! ### The host's side -/

/-- R233, R234: irq is IE and (DONE or ERR); clearing both flags, or IE, makes it 0; a level, it stays while the host does
nothing. That the block waits for as long as the host has no action pending is the model's choice (log 2). -/
def Obligations.InterruptLine : Prop :=
  (∀ s : State, s.host = [] → step s = .next s) ∧
  (∀ s : State, s.irq = true ↔ s.ie = true ∧ (s.done = true ∨ s.err = true)) ∧
  (∀ (s : State) (v : Word) (rest : List HostAction), s.busy = false →
    (s.host = .writeReg 0x04 v :: rest ∧ v.getLsbD 1 = true ∧ v.getLsbD 2 = true ∨
      s.host = .writeReg 0x00 v :: rest ∧ v.getLsbD 0 = false) →
    ∃ t, step s = .next t ∧ t.irq = false)

/-- R30, R31: the STATUS word, bit by bit, with the code numbers of R220, and its write: 1 clears DONE or ERR, ERRCODE
stays; CTRL reads IE in bit 0 and 0 elsewhere, and a write with SRST = 0 sets IE from bit 0 and changes nothing else. -/
def Obligations.StatusAndControlRegisters : Prop :=
  (ErrCode.none.number = 0 ∧ ErrCode.illegal.number = 1 ∧ ErrCode.palette.number = 2 ∧
    ErrCode.frameUnconf.number = 3 ∧ ErrCode.frameDivide.number = 4 ∧ ErrCode.bank.number = 5 ∧
    ErrCode.variant.number = 6 ∧ ErrCode.range.number = 7 ∧ ErrCode.capacity.number = 8 ∧
    ErrCode.bus.number = 9 ∧ ErrCode.overflow.number = 10) ∧
  (∀ (s : State) (k : Nat), k < 32 → (s.readReg .ctrl).getLsbD k = (decide (k = 0) && s.ie)) ∧
  (∀ (s : State) (v : Word) (rest : List HostAction), s.busy = false → s.host = .writeReg 0x00 v :: rest →
    v.getLsbD 1 = false → step s = .next { s with host := rest, ie := v.getLsbD 0 }) ∧
  (∀ (s : State) (k : Nat), k < 32 → (s.readReg .status).getLsbD k =
    if k = 0 then s.busy else if k = 1 then s.done else if k = 2 then s.err
    else if 8 ≤ k ∧ k < 16 then s.errCode.number.testBit (k - 8) else false) ∧
  (∀ (s : State) (v : Word) (rest : List HostAction), s.host = .writeReg 0x04 v :: rest →
    step s = .next { s with host := rest, done := s.done && !v.getLsbD 1, err := s.err && !v.getLsbD 2 })

/-- R36: the window shows the bank BANK_SEL selects, and reads 0 when it does not exist or is not valid. -/
def Obligations.BankWindow : Prop :=
  ∀ s : State,
    (∀ r, s.raster s.bankSel.toNat = some r →
      (s.readReg .bankDesc).toNat =
        1 + 2 * (if r.variant = .planar2bpp then 1 else 0) + 4 * (if r.order = .colMajor then 1 else 0) +
          8 * (if r.bp1.isSome then 1 else 0) + 16 * (if r.bp2.isSome then 1 else 0) ∧
      s.readReg .bankWt = r.wt ∧ s.readReg .bankHt = r.ht ∧
      (r.Ok s.cfg → ∀ k : Fin 16, (k.val < palMax r.variant → r.pal[k.val]? = some (s.readReg (.bankPal k))) ∧
        (palMax r.variant ≤ k.val → s.readReg (.bankPal k) = 0))) ∧
    (s.nbanks ≤ s.bankSel.toNat ∨ s.raster s.bankSel.toNat = none →
      s.readReg .bankDesc = 0 ∧ s.readReg .bankWt = 0 ∧ s.readReg .bankHt = 0 ∧
        ∀ k, s.readReg (.bankPal k) = 0)

/-- R20, R21 to R25, R32 to R36: the register at each offset, the field each register that is storage reads as (CTRL and
STATUS: `StatusAndControlRegisters`, the window: `BankWindow`), and that a host write to an RW register sets it and no
other location, and touches neither banks nor MEM. -/
def Obligations.RegisterWriteSetsOneRegister : Prop :=
  (∀ e ∈ ([(0x00, .ctrl), (0x04, .status), (0x08, .cmd), (0x0C, .result), (0x10, .srcAddr), (0x14, .srcLen),
      (0x18, .dstAddr), (0x1C, .dstCap), (0x20, .dstLen), (0x24, .arg0), (0x28, .arg1), (0x2C, .arg2), (0x30, .arg3),
      (0x34, .frameW), (0x38, .frameH), (0x3C, .errInfo0), (0x40, .errInfo1), (0x44, .palInSize), (0x48, .bankSel),
      (0x4C, .bankDesc), (0x50, .bankWt), (0x54, .bankHt)] : List (Nat × Reg)), regAt e.1 = some e.2) ∧
  (∀ i : Fin 16, regAt (0x80 + 4 * i.val) = some (.palIn i) ∧ regAt (0xC0 + 4 * i.val) = some (.bankPal i)) ∧
  (∀ s : State,
    s.readReg .cmd = s.cmd ∧ s.readReg .result = s.result ∧ s.readReg .srcAddr = s.srcAddr ∧
    s.readReg .srcLen = s.srcLen ∧ s.readReg .dstAddr = s.dstAddr ∧ s.readReg .dstCap = s.dstCap ∧
    s.readReg .dstLen = s.dstLen ∧ s.readReg .arg0 = s.arg0 ∧ s.readReg .arg1 = s.arg1 ∧ s.readReg .arg2 = s.arg2 ∧
    s.readReg .arg3 = s.arg3 ∧ s.readReg .frameW = s.frameW ∧ s.readReg .frameH = s.frameH ∧
    s.readReg .errInfo0 = s.errInfo0 ∧ s.readReg .errInfo1 = s.errInfo1 ∧ s.readReg .palInSize = s.palInSize ∧
    (s.readReg .bankSel).toNat = s.bankSel.toNat ∧ ∀ i : Fin 16, s.readReg (.palIn i) = s.palIn[i]) ∧
  ∀ (s : State) (off : Nat) (v : Word) (r : Reg) (rest : List HostAction),
    s.busy = false → s.host = .writeReg off v :: rest → regAt off = some r → plainReg r = true →
    ∃ t, step s = .next t ∧ t.readReg r = v ∧ (∀ q, q ≠ r → t.readReg q = s.readReg q) ∧ t.banks = s.banks ∧
      (∀ a, t.memByte a = s.memByte a)

/-- R65, R272: a host read of any register returns what it reads as and has no side effect. R20, R36, R37: a host write to
BANK_SEL keeps bits 3:0; a write to a read-only or reserved location changes nothing. -/
def Obligations.ReservedBitsAndReadOnlyLocations : Prop :=
  (∀ (s : State) (off : Nat) (r : Reg) (rest : List HostAction),
    s.busy = false → s.host = .readReg off :: rest → regAt off = some r →
    step s = .next { s with host := rest, regData := s.readReg r }) ∧
  (∀ (s : State) (v : Word) (rest : List HostAction), s.busy = false → s.host = .writeReg 0x48 v :: rest →
    ∃ t, step s = .next t ∧ (t.readReg .bankSel).toNat = v.toNat % 16 ∧
      t = { s with host := rest, bankSel := t.bankSel }) ∧
  (∀ (s : State) (off : Nat) (v : Word) (r : Reg) (rest : List HostAction),
    s.busy = false → s.host = .writeReg off v :: rest → regAt off = some r → readOnlyReg r = true →
    step s = .next { s with host := rest }) ∧
  (∀ (s : State) (off : Nat), 0x58 ≤ off → off ≤ 0x7C → off % 4 = 0 →
    regAt off = some .reserved ∧ s.readReg .reserved = 0)

/-- R60, R62, R65: a host write of bytes puts them at the addresses upward and changes nothing else; a host read returns the
bytes and has no side effect; a wide access is little-endian. -/
def Obligations.HostReadsAndWritesMemory : Prop :=
  (∀ (s : State) (a : Word) (bs : List Byte) (rest : List HostAction),
    s.busy = false → s.host = .writeMem a bs :: rest → a.toNat + bs.length ≤ s.cfg.memSize →
    ∃ t, step s = .next t ∧ t = { s with host := rest, mem := t.mem } ∧
      t.memRead a.toNat bs.length = bs ∧
      ∀ x, x < a.toNat ∨ a.toNat + bs.length ≤ x → t.memByte x = s.memByte x) ∧
  (∀ (s : State) (a : Word) (n : Nat) (rest : List HostAction),
    s.busy = false → s.host = .readMem a n :: rest → a.toNat + n ≤ s.cfg.memSize →
    step s = .next { s with host := rest, memData := (List.range n).map fun k => s.memByte (a.toNat + k) }) ∧
  (∀ k v : Nat, leValue (leBytes k v) = v % 256 ^ k)

/-- R63: the model refuses a register access at an offset that is no register word. The rest is the model's choice (log 10,
DEDUCED from R60, which gives MEM no address at or above MEM_SIZE and does not say what a host access there does): a
host write or read of at least one byte that reaches past MEM faults. -/
def Obligations.HostPortStops : Prop :=
  (∀ (s : State) (off : Nat) (v : Word) (rest : List HostAction),
    (s.host = .writeReg off v :: rest ∨ s.host = .readReg off :: rest) →
    (off % 4 ≠ 0 ∨ 0xFC < off ↔ step s = .refused .registerOffset)) ∧
  (∀ (s : State) (a : Word) (bs : List Byte) (rest : List HostAction),
    s.busy = false → s.host = .writeMem a bs :: rest → bs ≠ [] → s.cfg.memSize < a.toNat + bs.length →
    step s = .fault .hostMemOutOfRange) ∧
  (∀ (s : State) (a : Word) (n : Nat) (rest : List HostAction),
    s.busy = false → s.host = .readMem a n :: rest → 0 < n → s.cfg.memSize < a.toNat + n →
    step s = .fault .hostMemOutOfRange)
end

