-- ==== Sys2Proof/Laws/State.lean ====
section
/-! SUPPORT. One lemma per field per named update of State, so that no proof unfolds a record update. -/

namespace Sys2Proof.Machine

/-! ### accept -/

@[simp] theorem accept_cfg (w : Word) (s : State) : (accept w s).cfg = s.cfg := rfl
@[simp] theorem accept_ie (w : Word) (s : State) : (accept w s).ie = s.ie := rfl
@[simp] theorem accept_busy (w : Word) (s : State) : (accept w s).busy = true := rfl
@[simp] theorem accept_done (w : Word) (s : State) : (accept w s).done = false := rfl
@[simp] theorem accept_err (w : Word) (s : State) : (accept w s).err = false := rfl
@[simp] theorem accept_errCode (w : Word) (s : State) : (accept w s).errCode = .none := rfl
@[simp] theorem accept_cmd (w : Word) (s : State) : (accept w s).cmd = w := rfl
@[simp] theorem accept_result (w : Word) (s : State) : (accept w s).result = s.result := rfl
@[simp] theorem accept_srcAddr (w : Word) (s : State) : (accept w s).srcAddr = s.srcAddr := rfl
@[simp] theorem accept_srcLen (w : Word) (s : State) : (accept w s).srcLen = s.srcLen := rfl
@[simp] theorem accept_dstAddr (w : Word) (s : State) : (accept w s).dstAddr = s.dstAddr := rfl
@[simp] theorem accept_dstCap (w : Word) (s : State) : (accept w s).dstCap = s.dstCap := rfl
@[simp] theorem accept_dstLen (w : Word) (s : State) : (accept w s).dstLen = s.dstLen := rfl
@[simp] theorem accept_arg0 (w : Word) (s : State) : (accept w s).arg0 = s.arg0 := rfl
@[simp] theorem accept_arg1 (w : Word) (s : State) : (accept w s).arg1 = s.arg1 := rfl
@[simp] theorem accept_arg2 (w : Word) (s : State) : (accept w s).arg2 = s.arg2 := rfl
@[simp] theorem accept_arg3 (w : Word) (s : State) : (accept w s).arg3 = s.arg3 := rfl
@[simp] theorem accept_frameW (w : Word) (s : State) : (accept w s).frameW = s.frameW := rfl
@[simp] theorem accept_frameH (w : Word) (s : State) : (accept w s).frameH = s.frameH := rfl
@[simp] theorem accept_errInfo0 (w : Word) (s : State) : (accept w s).errInfo0 = 0 := rfl
@[simp] theorem accept_errInfo1 (w : Word) (s : State) : (accept w s).errInfo1 = 0 := rfl
@[simp] theorem accept_palInSize (w : Word) (s : State) : (accept w s).palInSize = s.palInSize := rfl
@[simp] theorem accept_palIn (w : Word) (s : State) : (accept w s).palIn = s.palIn := rfl
@[simp] theorem accept_bankSel (w : Word) (s : State) : (accept w s).bankSel = s.bankSel := rfl
@[simp] theorem accept_banks (w : Word) (s : State) : (accept w s).banks = s.banks := rfl
@[simp] theorem accept_mem (w : Word) (s : State) : (accept w s).mem = s.mem := rfl
@[simp] theorem accept_epoch (w : Word) (s : State) : (accept w s).epoch = s.epoch := rfl
@[simp] theorem accept_host (w : Word) (s : State) : (accept w s).host = s.host := rfl
@[simp] theorem accept_regData (w : Word) (s : State) : (accept w s).regData = s.regData := rfl
@[simp] theorem accept_memData (w : Word) (s : State) : (accept w s).memData = s.memData := rfl

/-! ### raiseError -/

@[simp] theorem raiseError_cfg (e : ErrCode) (i0 i1 : Nat) (s : State) : (raiseError e i0 i1 s).cfg = s.cfg := rfl
@[simp] theorem raiseError_ie (e : ErrCode) (i0 i1 : Nat) (s : State) : (raiseError e i0 i1 s).ie = s.ie := rfl
@[simp] theorem raiseError_busy (e : ErrCode) (i0 i1 : Nat) (s : State) : (raiseError e i0 i1 s).busy = false := rfl
@[simp] theorem raiseError_done (e : ErrCode) (i0 i1 : Nat) (s : State) : (raiseError e i0 i1 s).done = false := rfl
@[simp] theorem raiseError_err (e : ErrCode) (i0 i1 : Nat) (s : State) : (raiseError e i0 i1 s).err = true := rfl
@[simp] theorem raiseError_errCode (e : ErrCode) (i0 i1 : Nat) (s : State) : (raiseError e i0 i1 s).errCode = e := rfl
@[simp] theorem raiseError_cmd (e : ErrCode) (i0 i1 : Nat) (s : State) : (raiseError e i0 i1 s).cmd = s.cmd := rfl
@[simp] theorem raiseError_result (e : ErrCode) (i0 i1 : Nat) (s : State) : (raiseError e i0 i1 s).result = s.result := rfl
@[simp] theorem raiseError_srcAddr (e : ErrCode) (i0 i1 : Nat) (s : State) : (raiseError e i0 i1 s).srcAddr = s.srcAddr := rfl
@[simp] theorem raiseError_srcLen (e : ErrCode) (i0 i1 : Nat) (s : State) : (raiseError e i0 i1 s).srcLen = s.srcLen := rfl
@[simp] theorem raiseError_dstAddr (e : ErrCode) (i0 i1 : Nat) (s : State) : (raiseError e i0 i1 s).dstAddr = s.dstAddr := rfl
@[simp] theorem raiseError_dstCap (e : ErrCode) (i0 i1 : Nat) (s : State) : (raiseError e i0 i1 s).dstCap = s.dstCap := rfl
@[simp] theorem raiseError_dstLen (e : ErrCode) (i0 i1 : Nat) (s : State) : (raiseError e i0 i1 s).dstLen = s.dstLen := rfl
@[simp] theorem raiseError_arg0 (e : ErrCode) (i0 i1 : Nat) (s : State) : (raiseError e i0 i1 s).arg0 = s.arg0 := rfl
@[simp] theorem raiseError_arg1 (e : ErrCode) (i0 i1 : Nat) (s : State) : (raiseError e i0 i1 s).arg1 = s.arg1 := rfl
@[simp] theorem raiseError_arg2 (e : ErrCode) (i0 i1 : Nat) (s : State) : (raiseError e i0 i1 s).arg2 = s.arg2 := rfl
@[simp] theorem raiseError_arg3 (e : ErrCode) (i0 i1 : Nat) (s : State) : (raiseError e i0 i1 s).arg3 = s.arg3 := rfl
@[simp] theorem raiseError_frameW (e : ErrCode) (i0 i1 : Nat) (s : State) : (raiseError e i0 i1 s).frameW = s.frameW := rfl
@[simp] theorem raiseError_frameH (e : ErrCode) (i0 i1 : Nat) (s : State) : (raiseError e i0 i1 s).frameH = s.frameH := rfl
@[simp] theorem raiseError_errInfo0 (e : ErrCode) (i0 i1 : Nat) (s : State) : (raiseError e i0 i1 s).errInfo0 = saturate i0 := rfl
@[simp] theorem raiseError_errInfo1 (e : ErrCode) (i0 i1 : Nat) (s : State) : (raiseError e i0 i1 s).errInfo1 = saturate i1 := rfl
@[simp] theorem raiseError_palInSize (e : ErrCode) (i0 i1 : Nat) (s : State) : (raiseError e i0 i1 s).palInSize = s.palInSize := rfl
@[simp] theorem raiseError_palIn (e : ErrCode) (i0 i1 : Nat) (s : State) : (raiseError e i0 i1 s).palIn = s.palIn := rfl
@[simp] theorem raiseError_bankSel (e : ErrCode) (i0 i1 : Nat) (s : State) : (raiseError e i0 i1 s).bankSel = s.bankSel := rfl
@[simp] theorem raiseError_banks (e : ErrCode) (i0 i1 : Nat) (s : State) : (raiseError e i0 i1 s).banks = s.banks := rfl
@[simp] theorem raiseError_mem (e : ErrCode) (i0 i1 : Nat) (s : State) : (raiseError e i0 i1 s).mem = s.mem := rfl
@[simp] theorem raiseError_epoch (e : ErrCode) (i0 i1 : Nat) (s : State) : (raiseError e i0 i1 s).epoch = s.epoch := rfl
@[simp] theorem raiseError_host (e : ErrCode) (i0 i1 : Nat) (s : State) : (raiseError e i0 i1 s).host = s.host := rfl
@[simp] theorem raiseError_regData (e : ErrCode) (i0 i1 : Nat) (s : State) : (raiseError e i0 i1 s).regData = s.regData := rfl
@[simp] theorem raiseError_memData (e : ErrCode) (i0 i1 : Nat) (s : State) : (raiseError e i0 i1 s).memData = s.memData := rfl

/-! ### complete -/

@[simp] theorem complete_cfg (s : State) : (complete s).cfg = s.cfg := rfl
@[simp] theorem complete_ie (s : State) : (complete s).ie = s.ie := rfl
@[simp] theorem complete_busy (s : State) : (complete s).busy = false := rfl
@[simp] theorem complete_done (s : State) : (complete s).done = true := rfl
@[simp] theorem complete_err (s : State) : (complete s).err = false := rfl
@[simp] theorem complete_errCode (s : State) : (complete s).errCode = s.errCode := rfl
@[simp] theorem complete_cmd (s : State) : (complete s).cmd = s.cmd := rfl
@[simp] theorem complete_result (s : State) : (complete s).result = s.result := rfl
@[simp] theorem complete_srcAddr (s : State) : (complete s).srcAddr = s.srcAddr := rfl
@[simp] theorem complete_srcLen (s : State) : (complete s).srcLen = s.srcLen := rfl
@[simp] theorem complete_dstAddr (s : State) : (complete s).dstAddr = s.dstAddr := rfl
@[simp] theorem complete_dstCap (s : State) : (complete s).dstCap = s.dstCap := rfl
@[simp] theorem complete_dstLen (s : State) : (complete s).dstLen = s.dstLen := rfl
@[simp] theorem complete_arg0 (s : State) : (complete s).arg0 = s.arg0 := rfl
@[simp] theorem complete_arg1 (s : State) : (complete s).arg1 = s.arg1 := rfl
@[simp] theorem complete_arg2 (s : State) : (complete s).arg2 = s.arg2 := rfl
@[simp] theorem complete_arg3 (s : State) : (complete s).arg3 = s.arg3 := rfl
@[simp] theorem complete_frameW (s : State) : (complete s).frameW = s.frameW := rfl
@[simp] theorem complete_frameH (s : State) : (complete s).frameH = s.frameH := rfl
@[simp] theorem complete_errInfo0 (s : State) : (complete s).errInfo0 = s.errInfo0 := rfl
@[simp] theorem complete_errInfo1 (s : State) : (complete s).errInfo1 = s.errInfo1 := rfl
@[simp] theorem complete_palInSize (s : State) : (complete s).palInSize = s.palInSize := rfl
@[simp] theorem complete_palIn (s : State) : (complete s).palIn = s.palIn := rfl
@[simp] theorem complete_bankSel (s : State) : (complete s).bankSel = s.bankSel := rfl
@[simp] theorem complete_banks (s : State) : (complete s).banks = s.banks := rfl
@[simp] theorem complete_mem (s : State) : (complete s).mem = s.mem := rfl
@[simp] theorem complete_epoch (s : State) : (complete s).epoch = s.epoch := rfl
@[simp] theorem complete_host (s : State) : (complete s).host = s.host := rfl
@[simp] theorem complete_regData (s : State) : (complete s).regData = s.regData := rfl
@[simp] theorem complete_memData (s : State) : (complete s).memData = s.memData := rfl

/-! ### setRaster -/

@[simp] theorem setRaster_cfg (s : State) (b : Nat) (r : Raster) : (s.setRaster b r).cfg = s.cfg := rfl
@[simp] theorem setRaster_ie (s : State) (b : Nat) (r : Raster) : (s.setRaster b r).ie = s.ie := rfl
@[simp] theorem setRaster_busy (s : State) (b : Nat) (r : Raster) : (s.setRaster b r).busy = s.busy := rfl
@[simp] theorem setRaster_done (s : State) (b : Nat) (r : Raster) : (s.setRaster b r).done = s.done := rfl
@[simp] theorem setRaster_err (s : State) (b : Nat) (r : Raster) : (s.setRaster b r).err = s.err := rfl
@[simp] theorem setRaster_errCode (s : State) (b : Nat) (r : Raster) : (s.setRaster b r).errCode = s.errCode := rfl
@[simp] theorem setRaster_cmd (s : State) (b : Nat) (r : Raster) : (s.setRaster b r).cmd = s.cmd := rfl
@[simp] theorem setRaster_result (s : State) (b : Nat) (r : Raster) : (s.setRaster b r).result = s.result := rfl
@[simp] theorem setRaster_srcAddr (s : State) (b : Nat) (r : Raster) : (s.setRaster b r).srcAddr = s.srcAddr := rfl
@[simp] theorem setRaster_srcLen (s : State) (b : Nat) (r : Raster) : (s.setRaster b r).srcLen = s.srcLen := rfl
@[simp] theorem setRaster_dstAddr (s : State) (b : Nat) (r : Raster) : (s.setRaster b r).dstAddr = s.dstAddr := rfl
@[simp] theorem setRaster_dstCap (s : State) (b : Nat) (r : Raster) : (s.setRaster b r).dstCap = s.dstCap := rfl
@[simp] theorem setRaster_dstLen (s : State) (b : Nat) (r : Raster) : (s.setRaster b r).dstLen = s.dstLen := rfl
@[simp] theorem setRaster_arg0 (s : State) (b : Nat) (r : Raster) : (s.setRaster b r).arg0 = s.arg0 := rfl
@[simp] theorem setRaster_arg1 (s : State) (b : Nat) (r : Raster) : (s.setRaster b r).arg1 = s.arg1 := rfl
@[simp] theorem setRaster_arg2 (s : State) (b : Nat) (r : Raster) : (s.setRaster b r).arg2 = s.arg2 := rfl
@[simp] theorem setRaster_arg3 (s : State) (b : Nat) (r : Raster) : (s.setRaster b r).arg3 = s.arg3 := rfl
@[simp] theorem setRaster_frameW (s : State) (b : Nat) (r : Raster) : (s.setRaster b r).frameW = s.frameW := rfl
@[simp] theorem setRaster_frameH (s : State) (b : Nat) (r : Raster) : (s.setRaster b r).frameH = s.frameH := rfl
@[simp] theorem setRaster_errInfo0 (s : State) (b : Nat) (r : Raster) : (s.setRaster b r).errInfo0 = s.errInfo0 := rfl
@[simp] theorem setRaster_errInfo1 (s : State) (b : Nat) (r : Raster) : (s.setRaster b r).errInfo1 = s.errInfo1 := rfl
@[simp] theorem setRaster_palInSize (s : State) (b : Nat) (r : Raster) : (s.setRaster b r).palInSize = s.palInSize := rfl
@[simp] theorem setRaster_palIn (s : State) (b : Nat) (r : Raster) : (s.setRaster b r).palIn = s.palIn := rfl
@[simp] theorem setRaster_bankSel (s : State) (b : Nat) (r : Raster) : (s.setRaster b r).bankSel = s.bankSel := rfl
@[simp] theorem setRaster_banks (s : State) (b : Nat) (r : Raster) : (s.setRaster b r).banks = s.banks.set b (some r) := rfl
@[simp] theorem setRaster_mem (s : State) (b : Nat) (r : Raster) : (s.setRaster b r).mem = s.mem := rfl
@[simp] theorem setRaster_epoch (s : State) (b : Nat) (r : Raster) : (s.setRaster b r).epoch = s.epoch := rfl
@[simp] theorem setRaster_host (s : State) (b : Nat) (r : Raster) : (s.setRaster b r).host = s.host := rfl
@[simp] theorem setRaster_regData (s : State) (b : Nat) (r : Raster) : (s.setRaster b r).regData = s.regData := rfl
@[simp] theorem setRaster_memData (s : State) (b : Nat) (r : Raster) : (s.setRaster b r).memData = s.memData := rfl

/-! ### memWrite -/

@[simp] theorem memWrite_cfg (s : State) (a : Nat) (bs : List Byte) : (s.memWrite a bs).cfg = s.cfg := rfl
@[simp] theorem memWrite_ie (s : State) (a : Nat) (bs : List Byte) : (s.memWrite a bs).ie = s.ie := rfl
@[simp] theorem memWrite_busy (s : State) (a : Nat) (bs : List Byte) : (s.memWrite a bs).busy = s.busy := rfl
@[simp] theorem memWrite_done (s : State) (a : Nat) (bs : List Byte) : (s.memWrite a bs).done = s.done := rfl
@[simp] theorem memWrite_err (s : State) (a : Nat) (bs : List Byte) : (s.memWrite a bs).err = s.err := rfl
@[simp] theorem memWrite_errCode (s : State) (a : Nat) (bs : List Byte) : (s.memWrite a bs).errCode = s.errCode := rfl
@[simp] theorem memWrite_cmd (s : State) (a : Nat) (bs : List Byte) : (s.memWrite a bs).cmd = s.cmd := rfl
@[simp] theorem memWrite_result (s : State) (a : Nat) (bs : List Byte) : (s.memWrite a bs).result = s.result := rfl
@[simp] theorem memWrite_srcAddr (s : State) (a : Nat) (bs : List Byte) : (s.memWrite a bs).srcAddr = s.srcAddr := rfl
@[simp] theorem memWrite_srcLen (s : State) (a : Nat) (bs : List Byte) : (s.memWrite a bs).srcLen = s.srcLen := rfl
@[simp] theorem memWrite_dstAddr (s : State) (a : Nat) (bs : List Byte) : (s.memWrite a bs).dstAddr = s.dstAddr := rfl
@[simp] theorem memWrite_dstCap (s : State) (a : Nat) (bs : List Byte) : (s.memWrite a bs).dstCap = s.dstCap := rfl
@[simp] theorem memWrite_dstLen (s : State) (a : Nat) (bs : List Byte) : (s.memWrite a bs).dstLen = s.dstLen := rfl
@[simp] theorem memWrite_arg0 (s : State) (a : Nat) (bs : List Byte) : (s.memWrite a bs).arg0 = s.arg0 := rfl
@[simp] theorem memWrite_arg1 (s : State) (a : Nat) (bs : List Byte) : (s.memWrite a bs).arg1 = s.arg1 := rfl
@[simp] theorem memWrite_arg2 (s : State) (a : Nat) (bs : List Byte) : (s.memWrite a bs).arg2 = s.arg2 := rfl
@[simp] theorem memWrite_arg3 (s : State) (a : Nat) (bs : List Byte) : (s.memWrite a bs).arg3 = s.arg3 := rfl
@[simp] theorem memWrite_frameW (s : State) (a : Nat) (bs : List Byte) : (s.memWrite a bs).frameW = s.frameW := rfl
@[simp] theorem memWrite_frameH (s : State) (a : Nat) (bs : List Byte) : (s.memWrite a bs).frameH = s.frameH := rfl
@[simp] theorem memWrite_errInfo0 (s : State) (a : Nat) (bs : List Byte) : (s.memWrite a bs).errInfo0 = s.errInfo0 := rfl
@[simp] theorem memWrite_errInfo1 (s : State) (a : Nat) (bs : List Byte) : (s.memWrite a bs).errInfo1 = s.errInfo1 := rfl
@[simp] theorem memWrite_palInSize (s : State) (a : Nat) (bs : List Byte) : (s.memWrite a bs).palInSize = s.palInSize := rfl
@[simp] theorem memWrite_palIn (s : State) (a : Nat) (bs : List Byte) : (s.memWrite a bs).palIn = s.palIn := rfl
@[simp] theorem memWrite_bankSel (s : State) (a : Nat) (bs : List Byte) : (s.memWrite a bs).bankSel = s.bankSel := rfl
@[simp] theorem memWrite_banks (s : State) (a : Nat) (bs : List Byte) : (s.memWrite a bs).banks = s.banks := rfl
@[simp] theorem memWrite_mem (s : State) (a : Nat) (bs : List Byte) : (s.memWrite a bs).mem = s.mem.storeAll a bs := rfl
@[simp] theorem memWrite_epoch (s : State) (a : Nat) (bs : List Byte) : (s.memWrite a bs).epoch = s.epoch := rfl
@[simp] theorem memWrite_host (s : State) (a : Nat) (bs : List Byte) : (s.memWrite a bs).host = s.host := rfl
@[simp] theorem memWrite_regData (s : State) (a : Nat) (bs : List Byte) : (s.memWrite a bs).regData = s.regData := rfl
@[simp] theorem memWrite_memData (s : State) (a : Nat) (bs : List Byte) : (s.memWrite a bs).memData = s.memData := rfl

/-! ### clearStatus -/

@[simp] theorem clearStatus_cfg (v : Word) (s : State) : (clearStatus v s).cfg = s.cfg := rfl
@[simp] theorem clearStatus_ie (v : Word) (s : State) : (clearStatus v s).ie = s.ie := rfl
@[simp] theorem clearStatus_busy (v : Word) (s : State) : (clearStatus v s).busy = s.busy := rfl
@[simp] theorem clearStatus_done (v : Word) (s : State) : (clearStatus v s).done = (s.done && !v.getLsbD 1) := rfl
@[simp] theorem clearStatus_err (v : Word) (s : State) : (clearStatus v s).err = (s.err && !v.getLsbD 2) := rfl
@[simp] theorem clearStatus_errCode (v : Word) (s : State) : (clearStatus v s).errCode = s.errCode := rfl
@[simp] theorem clearStatus_cmd (v : Word) (s : State) : (clearStatus v s).cmd = s.cmd := rfl
@[simp] theorem clearStatus_result (v : Word) (s : State) : (clearStatus v s).result = s.result := rfl
@[simp] theorem clearStatus_srcAddr (v : Word) (s : State) : (clearStatus v s).srcAddr = s.srcAddr := rfl
@[simp] theorem clearStatus_srcLen (v : Word) (s : State) : (clearStatus v s).srcLen = s.srcLen := rfl
@[simp] theorem clearStatus_dstAddr (v : Word) (s : State) : (clearStatus v s).dstAddr = s.dstAddr := rfl
@[simp] theorem clearStatus_dstCap (v : Word) (s : State) : (clearStatus v s).dstCap = s.dstCap := rfl
@[simp] theorem clearStatus_dstLen (v : Word) (s : State) : (clearStatus v s).dstLen = s.dstLen := rfl
@[simp] theorem clearStatus_arg0 (v : Word) (s : State) : (clearStatus v s).arg0 = s.arg0 := rfl
@[simp] theorem clearStatus_arg1 (v : Word) (s : State) : (clearStatus v s).arg1 = s.arg1 := rfl
@[simp] theorem clearStatus_arg2 (v : Word) (s : State) : (clearStatus v s).arg2 = s.arg2 := rfl
@[simp] theorem clearStatus_arg3 (v : Word) (s : State) : (clearStatus v s).arg3 = s.arg3 := rfl
@[simp] theorem clearStatus_frameW (v : Word) (s : State) : (clearStatus v s).frameW = s.frameW := rfl
@[simp] theorem clearStatus_frameH (v : Word) (s : State) : (clearStatus v s).frameH = s.frameH := rfl
@[simp] theorem clearStatus_errInfo0 (v : Word) (s : State) : (clearStatus v s).errInfo0 = s.errInfo0 := rfl
@[simp] theorem clearStatus_errInfo1 (v : Word) (s : State) : (clearStatus v s).errInfo1 = s.errInfo1 := rfl
@[simp] theorem clearStatus_palInSize (v : Word) (s : State) : (clearStatus v s).palInSize = s.palInSize := rfl
@[simp] theorem clearStatus_palIn (v : Word) (s : State) : (clearStatus v s).palIn = s.palIn := rfl
@[simp] theorem clearStatus_bankSel (v : Word) (s : State) : (clearStatus v s).bankSel = s.bankSel := rfl
@[simp] theorem clearStatus_banks (v : Word) (s : State) : (clearStatus v s).banks = s.banks := rfl
@[simp] theorem clearStatus_mem (v : Word) (s : State) : (clearStatus v s).mem = s.mem := rfl
@[simp] theorem clearStatus_epoch (v : Word) (s : State) : (clearStatus v s).epoch = s.epoch := rfl
@[simp] theorem clearStatus_host (v : Word) (s : State) : (clearStatus v s).host = s.host := rfl
@[simp] theorem clearStatus_regData (v : Word) (s : State) : (clearStatus v s).regData = s.regData := rfl
@[simp] theorem clearStatus_memData (v : Word) (s : State) : (clearStatus v s).memData = s.memData := rfl

/-! ### softReset -/

@[simp] theorem softReset_cfg (s : State) : (softReset s).cfg = s.cfg := rfl
@[simp] theorem softReset_ie (s : State) : (softReset s).ie = false := rfl
@[simp] theorem softReset_busy (s : State) : (softReset s).busy = false := rfl
@[simp] theorem softReset_done (s : State) : (softReset s).done = false := rfl
@[simp] theorem softReset_err (s : State) : (softReset s).err = false := rfl
@[simp] theorem softReset_errCode (s : State) : (softReset s).errCode = .none := rfl
@[simp] theorem softReset_cmd (s : State) : (softReset s).cmd = 0 := rfl
@[simp] theorem softReset_result (s : State) : (softReset s).result = 0 := rfl
@[simp] theorem softReset_srcAddr (s : State) : (softReset s).srcAddr = 0 := rfl
@[simp] theorem softReset_srcLen (s : State) : (softReset s).srcLen = 0 := rfl
@[simp] theorem softReset_dstAddr (s : State) : (softReset s).dstAddr = 0 := rfl
@[simp] theorem softReset_dstCap (s : State) : (softReset s).dstCap = 0 := rfl
@[simp] theorem softReset_dstLen (s : State) : (softReset s).dstLen = 0 := rfl
@[simp] theorem softReset_arg0 (s : State) : (softReset s).arg0 = 0 := rfl
@[simp] theorem softReset_arg1 (s : State) : (softReset s).arg1 = 0 := rfl
@[simp] theorem softReset_arg2 (s : State) : (softReset s).arg2 = 0 := rfl
@[simp] theorem softReset_arg3 (s : State) : (softReset s).arg3 = 0 := rfl
@[simp] theorem softReset_frameW (s : State) : (softReset s).frameW = 0 := rfl
@[simp] theorem softReset_frameH (s : State) : (softReset s).frameH = 0 := rfl
@[simp] theorem softReset_errInfo0 (s : State) : (softReset s).errInfo0 = 0 := rfl
@[simp] theorem softReset_errInfo1 (s : State) : (softReset s).errInfo1 = 0 := rfl
@[simp] theorem softReset_palInSize (s : State) : (softReset s).palInSize = 0 := rfl
@[simp] theorem softReset_palIn (s : State) : (softReset s).palIn = Vector.replicate 16 0 := rfl
@[simp] theorem softReset_bankSel (s : State) : (softReset s).bankSel = 0 := rfl
@[simp] theorem softReset_banks (s : State) : (softReset s).banks = s.banks.map fun _ => none := rfl
@[simp] theorem softReset_mem (s : State) : (softReset s).mem = s.mem := rfl
@[simp] theorem softReset_epoch (s : State) : (softReset s).epoch = s.epoch := rfl
@[simp] theorem softReset_host (s : State) : (softReset s).host = s.host := rfl
@[simp] theorem softReset_regData (s : State) : (softReset s).regData = s.regData := rfl
@[simp] theorem softReset_memData (s : State) : (softReset s).memData = s.memData := rfl

/-! ### hardReset -/

@[simp] theorem hardReset_cfg (s : State) : (hardReset s).cfg = s.cfg := rfl
@[simp] theorem hardReset_ie (s : State) : (hardReset s).ie = false := rfl
@[simp] theorem hardReset_busy (s : State) : (hardReset s).busy = false := rfl
@[simp] theorem hardReset_done (s : State) : (hardReset s).done = false := rfl
@[simp] theorem hardReset_err (s : State) : (hardReset s).err = false := rfl
@[simp] theorem hardReset_errCode (s : State) : (hardReset s).errCode = .none := rfl
@[simp] theorem hardReset_cmd (s : State) : (hardReset s).cmd = 0 := rfl
@[simp] theorem hardReset_result (s : State) : (hardReset s).result = 0 := rfl
@[simp] theorem hardReset_srcAddr (s : State) : (hardReset s).srcAddr = 0 := rfl
@[simp] theorem hardReset_srcLen (s : State) : (hardReset s).srcLen = 0 := rfl
@[simp] theorem hardReset_dstAddr (s : State) : (hardReset s).dstAddr = 0 := rfl
@[simp] theorem hardReset_dstCap (s : State) : (hardReset s).dstCap = 0 := rfl
@[simp] theorem hardReset_dstLen (s : State) : (hardReset s).dstLen = 0 := rfl
@[simp] theorem hardReset_arg0 (s : State) : (hardReset s).arg0 = 0 := rfl
@[simp] theorem hardReset_arg1 (s : State) : (hardReset s).arg1 = 0 := rfl
@[simp] theorem hardReset_arg2 (s : State) : (hardReset s).arg2 = 0 := rfl
@[simp] theorem hardReset_arg3 (s : State) : (hardReset s).arg3 = 0 := rfl
@[simp] theorem hardReset_frameW (s : State) : (hardReset s).frameW = 0 := rfl
@[simp] theorem hardReset_frameH (s : State) : (hardReset s).frameH = 0 := rfl
@[simp] theorem hardReset_errInfo0 (s : State) : (hardReset s).errInfo0 = 0 := rfl
@[simp] theorem hardReset_errInfo1 (s : State) : (hardReset s).errInfo1 = 0 := rfl
@[simp] theorem hardReset_palInSize (s : State) : (hardReset s).palInSize = 0 := rfl
@[simp] theorem hardReset_palIn (s : State) : (hardReset s).palIn = Vector.replicate 16 0 := rfl
@[simp] theorem hardReset_bankSel (s : State) : (hardReset s).bankSel = 0 := rfl
@[simp] theorem hardReset_banks (s : State) : (hardReset s).banks = s.banks.map fun _ => none := rfl
@[simp] theorem hardReset_mem (s : State) : (hardReset s).mem = [] := rfl
@[simp] theorem hardReset_epoch (s : State) : (hardReset s).epoch = s.epoch + 1 := rfl
@[simp] theorem hardReset_host (s : State) : (hardReset s).host = s.host := rfl
@[simp] theorem hardReset_regData (s : State) : (hardReset s).regData = s.regData := rfl
@[simp] theorem hardReset_memData (s : State) : (hardReset s).memData = s.memData := rfl

end Sys2Proof.Machine
end

