-- ==== Sys2Proof/Laws/Memory.lean ====
section
/-! SUPPORT. MEM: read after write, the frame of a write, and the canonical form that every write keeps. -/

namespace Sys2Proof.Machine

theorem written_store_same (m : Memory) (a : Nat) (v : Byte) : (m.store a v).written a = some v := by
  induction m with
  | nil => simp [Memory.store, Memory.written]
  | cons c m ih =>
    obtain ⟨k, w⟩ := c
    unfold Memory.store
    split
    · simp [Memory.written]
    · split
      · simp [Memory.written]
      · next h₁ h₂ => simp [Memory.written, ih, Ne.symm h₂]

theorem written_store_other {m : Memory} {a b : Nat} {v : Byte} (h : b ≠ a) :
    (m.store a v).written b = m.written b := by
  induction m with
  | nil => simp [Memory.store, Memory.written, Ne.symm h]
  | cons c m ih =>
    obtain ⟨k, w⟩ := c
    unfold Memory.store
    split
    · simp [Memory.written, Ne.symm h]
    · split
      · next hk => subst hk; simp [Memory.written, Ne.symm h]
      · simp [Memory.written, ih]

theorem mem_store {m : Memory} {a : Nat} {v : Byte} {c : Host.Cell} (h : c ∈ m.store a v) :
    c = (a, v) ∨ c ∈ m := by
  induction m with
  | nil => simpa [Memory.store] using h
  | cons d m ih =>
    obtain ⟨k, w⟩ := d
    unfold Memory.store at h
    split at h
    · simpa using h
    · split at h
      · simp only [List.mem_cons] at h ⊢; tauto
      · simp only [List.mem_cons] at h ⊢
        rcases h with h | h
        · exact .inr (.inl h)
        · exact (ih h).imp_right .inr

/-- A write of a byte keeps the canonical form. -/
theorem store_wf {m : Memory} (a : Nat) (v : Byte) (h : m.wf) : (m.store a v).wf := by
  induction m with
  | nil => simp [Memory.store, Memory.wf]
  | cons c m ih =>
    obtain ⟨k, w⟩ := c
    simp only [Memory.wf, List.map_cons, List.pairwise_cons] at h ih
    obtain ⟨hk, hm⟩ := h
    unfold Memory.store
    split
    · next hlt =>
      simp only [Memory.wf, List.map_cons, List.pairwise_cons, List.mem_cons]
      exact ⟨fun x hx => hx.elim (· ▸ hlt) fun hx => hlt.trans (hk x hx), hk, hm⟩
    · split
      · next heq => subst heq; simp only [Memory.wf, List.map_cons, List.pairwise_cons]; exact ⟨hk, hm⟩
      · next hlt hne =>
        simp only [Memory.wf, List.map_cons, List.pairwise_cons]
        refine ⟨fun x hx => ?_, ih hm⟩
        obtain ⟨c, hc, rfl⟩ := List.mem_map.mp hx
        rcases mem_store hc with rfl | hc
        · show k < a; omega
        · exact hk _ (List.mem_map_of_mem hc)

/-- A write of a list of bytes keeps the canonical form. -/
theorem storeAll_wf {m : Memory} (a : Nat) (bs : List Byte) (h : m.wf) : (m.storeAll a bs).wf := by
  induction bs generalizing m a with
  | nil => exact h
  | cons b bs ih => exact ih (a + 1) (store_wf a b h)

/-- The host's and the engine's write keeps the canonical form. -/
theorem memWrite_wf {s : State} (a : Nat) (bs : List Byte) (h : s.mem.wf) : (s.memWrite a bs).mem.wf :=
  storeAll_wf a bs h

/-- MEM is in canonical form right after reset. -/
theorem reset_mem_wf : State.reset.mem.wf := List.Pairwise.nil

/-- A write of a list of bytes lists no address outside its range that was not listed before. -/
theorem mem_storeAll {m : Memory} {a : Nat} {bs : List Byte} {c : Host.Cell} (h : c ∈ m.storeAll a bs) :
    c ∈ m ∨ (a ≤ c.1 ∧ c.1 < a + bs.length) := by
  induction bs generalizing m a with
  | nil => exact .inl h
  | cons b bs ih =>
    rcases ih h with h | h
    · rcases mem_store h with rfl | h
      · right; simp
      · exact .inl h
    · right; simp only [List.length_cons]; omega

theorem written_storeAll_outside {m : Memory} {a x : Nat} {bs : List Byte} (h : x < a ∨ a + bs.length ≤ x) :
    (m.storeAll a bs).written x = m.written x := by
  induction bs generalizing m a with
  | nil => rfl
  | cons b bs ih =>
    simp only [List.length_cons] at h
    rw [Memory.storeAll, ih (by omega), written_store_other (by omega)]

theorem written_storeAll_inside {m : Memory} {a i : Nat} {bs : List Byte} (h : i < bs.length) :
    (m.storeAll a bs).written (a + i) = bs[i]? := by
  induction bs generalizing m a i with
  | nil => simp at h
  | cons b bs ih =>
    rw [Memory.storeAll]
    cases i with
    | zero => rw [written_storeAll_outside (by omega)]; simp [written_store_same]
    | succ i =>
      rw [show a + (i + 1) = a + 1 + i by omega, ih (by simpa using h)]
      simp

/-- A byte outside the written range reads as before. -/
theorem memByte_memWrite_outside {s : State} {a x : Nat} {bs : List Byte} (h : x < a ∨ a + bs.length ≤ x) :
    (s.memWrite a bs).memByte x = s.memByte x := by
  simp [State.memByte, written_storeAll_outside h]

/-- What was written is read back. -/
theorem memRead_memWrite (s : State) (a : Nat) (bs : List Byte) : (s.memWrite a bs).memRead a bs.length = bs := by
  refine List.ext_getElem? fun i => ?_
  by_cases h : i < bs.length
  · simp [State.memRead, State.memByte, h, written_storeAll_inside]
  · simp [State.memRead, h]

/-- `memByte` looks at the written bytes and the epoch only. -/
theorem memByte_congr {s t : State} (hm : t.mem = s.mem) (he : t.epoch = s.epoch) (x : Nat) :
    t.memByte x = s.memByte x := by simp [State.memByte, hm, he]

/-- `memRead` looks at the written bytes and the epoch only. -/
theorem memRead_congr {s t : State} (hm : t.mem = s.mem) (he : t.epoch = s.epoch) (a n : Nat) :
    t.memRead a n = s.memRead a n := by simp [State.memRead, memByte_congr hm he]

/-- The canonical form makes equal contents equal data: two canonical memories that hold the same written bytes are the
same list. -/
theorem wf_ext {m m' : Memory} (h : m.wf) (h' : m'.wf) (hw : ∀ a, m.written a = m'.written a) : m = m' := by
  have none_of_lt : ∀ {l : Memory} {a : Nat}, (∀ x ∈ l.map Prod.fst, a < x) → l.written a = none := by
    intro l a hl
    induction l with
    | nil => rfl
    | cons c l ih =>
      obtain ⟨k, w⟩ := c
      have hk : a < k := hl k (by simp)
      rw [Memory.written, if_neg (by omega)]
      exact ih fun x hx => hl x (by simp only [List.map_cons, List.mem_cons]; exact .inr hx)
  induction m generalizing m' with
  | nil =>
    cases m' with
    | nil => rfl
    | cons c m' =>
      obtain ⟨k, w⟩ := c
      simpa [Memory.written] using hw k
  | cons c m ih =>
    obtain ⟨k, w⟩ := c
    cases m' with
    | nil => simpa [Memory.written] using hw k
    | cons c' m' =>
      obtain ⟨k', w'⟩ := c'
      simp only [Memory.wf, List.map_cons, List.pairwise_cons] at h h' ih
      have hkk : k = k' := by
        rcases lt_trichotomy k k' with hlt | heq | hgt
        · have := hw k
          rw [Memory.written, if_pos rfl, Memory.written, if_neg (by omega),
            none_of_lt fun x hx => hlt.trans (h'.1 x hx)] at this
          cases this
        · exact heq
        · have := hw k'
          rw [Memory.written, if_neg (by omega), none_of_lt fun x hx => hgt.trans (h.1 x hx), Memory.written,
            if_pos rfl] at this
          cases this
      subst hkk
      have hv : w = w' := by simpa [Memory.written] using hw k
      subst hv
      refine congrArg _ (ih h.2 h'.2 fun a => ?_)
      by_cases ha : a = k
      · subst ha; rw [none_of_lt h.1, none_of_lt h'.1]
      · simpa [Memory.written, Ne.symm ha] using hw a

end Sys2Proof.Machine
end

