-- ==== Sys2Proof/Laws/Bank.lean ====
section
/-! SUPPORT. Banks: read after build, independence of banks, the raster updates. -/

namespace Sys2Proof.Machine

theorem raster_lt {s : State} {b : Nat} {r : Raster} (h : s.raster b = some r) : b < s.nbanks := by
  by_contra hn
  rw [State.raster, List.getD_eq_default _ _ (Nat.le_of_not_lt hn : s.banks.length ≤ b)] at h
  cases h

theorem raster_mem {s : State} {b : Nat} {r : Raster} (h : s.raster b = some r) : some r ∈ s.banks := by
  have hlt : b < s.banks.length := raster_lt h
  rw [State.raster, List.getD_eq_getElem _ _ hlt] at h
  exact h ▸ List.getElem_mem hlt

theorem raster_none_of_ge {s : State} {b : Nat} (h : s.nbanks ≤ b) : s.raster b = none :=
  List.getD_eq_default _ _ h

@[simp] theorem nbanks_setRaster (s : State) (b : Nat) (r : Raster) : (s.setRaster b r).nbanks = s.nbanks := by
  simp [State.nbanks]

theorem raster_congr {s t : State} (h : t.banks = s.banks) (b : Nat) : t.raster b = s.raster b := by
  simp [State.raster, h]

theorem nbanks_congr {s t : State} (h : t.banks = s.banks) : t.nbanks = s.nbanks := by simp [State.nbanks, h]

theorem raster_setRaster_same {s : State} {b : Nat} (r : Raster) (h : b < s.nbanks) :
    (s.setRaster b r).raster b = some r := by
  have h' : b < s.banks.length := h
  simp [State.raster, List.getD_eq_getElem?_getD, h']

theorem raster_setRaster_other {s : State} {b c : Nat} {r : Raster} (h : c ≠ b) :
    (s.setRaster b r).raster c = s.raster c := by
  simp [State.raster, List.getD_eq_getElem?_getD, List.getElem?_set_ne (Ne.symm h)]

/-- A raster of a machine after a build was there before or is the one built. -/
theorem mem_setRaster {s : State} {b : Nat} {r q : Raster} (h : some q ∈ (s.setRaster b r).banks) :
    some q ∈ s.banks ∨ q = r := by
  rcases List.mem_or_eq_of_mem_set h with h | h
  · exact .inl h
  · exact .inr (Option.some.inj h)

theorem setRaster_self {s : State} {b : Nat} {r : Raster} (h : s.raster b = some r) : s.setRaster b r = s := by
  have hlt : b < s.banks.length := raster_lt h
  rw [State.raster, List.getD_eq_getElem _ _ hlt] at h
  simp [State.setRaster, ← h]

/-! ### Updates of a raster -/

@[simp] theorem dropPlanes_variant (r : Raster) : r.dropPlanes.variant = r.variant := rfl
@[simp] theorem dropPlanes_order (r : Raster) : r.dropPlanes.order = r.order := rfl
@[simp] theorem dropPlanes_wt (r : Raster) : r.dropPlanes.wt = r.wt := rfl
@[simp] theorem dropPlanes_ht (r : Raster) : r.dropPlanes.ht = r.ht := rfl
@[simp] theorem dropPlanes_pal (r : Raster) : r.dropPlanes.pal = r.pal := rfl
@[simp] theorem dropPlanes_samples (r : Raster) : r.dropPlanes.samples = r.samples := rfl
@[simp] theorem dropPlanes_bp1 (r : Raster) : r.dropPlanes.bp1 = none := rfl
@[simp] theorem dropPlanes_bp2 (r : Raster) : r.dropPlanes.bp2 = none := rfl

@[simp] theorem setSample_variant (r : Raster) (x y : Nat) (v : Sample) : (r.setSample x y v).variant = r.variant := rfl
@[simp] theorem setSample_order (r : Raster) (x y : Nat) (v : Sample) : (r.setSample x y v).order = r.order := rfl
@[simp] theorem setSample_wt (r : Raster) (x y : Nat) (v : Sample) : (r.setSample x y v).wt = r.wt := rfl
@[simp] theorem setSample_ht (r : Raster) (x y : Nat) (v : Sample) : (r.setSample x y v).ht = r.ht := rfl
@[simp] theorem setSample_pal (r : Raster) (x y : Nat) (v : Sample) : (r.setSample x y v).pal = r.pal := rfl
@[simp] theorem setSample_samples (r : Raster) (x y : Nat) (v : Sample) :
    (r.setSample x y v).samples = r.samples.set (y * (8 * r.wt.toNat) + x) v := rfl

/-- What filling plane 1 does: the cached plane stays, else it is computed; nothing else changes. -/
theorem fillPlane_one (r : Raster) :
    r.fillPlane .one = { r with bp1 := some (r.bp1.getD (r.samples.map fun v => v.extractLsb' 0 1)) } := by
  obtain ⟨_, _, _, _, _, _, p, _⟩ := r
  cases p <;> rfl

/-- What filling plane 2 does. -/
theorem fillPlane_two (r : Raster) :
    r.fillPlane .two = { r with bp2 := some (r.bp2.getD (r.samples.map fun v => v.extractLsb' 1 1)) } := by
  obtain ⟨_, _, _, _, _, _, _, p⟩ := r
  cases p <;> rfl

@[simp] theorem fillPlane_variant (r : Raster) (n : Plane) : (r.fillPlane n).variant = r.variant := by
  cases n <;> simp [fillPlane_one, fillPlane_two]
@[simp] theorem fillPlane_order (r : Raster) (n : Plane) : (r.fillPlane n).order = r.order := by
  cases n <;> simp [fillPlane_one, fillPlane_two]
@[simp] theorem fillPlane_wt (r : Raster) (n : Plane) : (r.fillPlane n).wt = r.wt := by
  cases n <;> simp [fillPlane_one, fillPlane_two]
@[simp] theorem fillPlane_ht (r : Raster) (n : Plane) : (r.fillPlane n).ht = r.ht := by
  cases n <;> simp [fillPlane_one, fillPlane_two]
@[simp] theorem fillPlane_pal (r : Raster) (n : Plane) : (r.fillPlane n).pal = r.pal := by
  cases n <;> simp [fillPlane_one, fillPlane_two]
@[simp] theorem fillPlane_samples (r : Raster) (n : Plane) : (r.fillPlane n).samples = r.samples := by
  cases n <;> simp [fillPlane_one, fillPlane_two]

/-- After a fill the plane is cached (R150). -/
theorem fillPlane_cached (r : Raster) (n : Plane) :
    (r.fillPlane n).cached n = some ((r.cached n).getD (r.computePlane n)) := by
  cases n <;> simp [fillPlane_one, fillPlane_two, Raster.cached, Raster.computePlane, Plane.bitIndex]

end Sys2Proof.Machine
end

