-- ==== Sys2Proof/Laws/Bits.lean ====
section
/-! SUPPORT. Bits of words and bytes: the fields of a command word, the flags of a register word, nibbles and lengths. -/

namespace Sys2Proof

theorem field_lt (w : Word) (lo n : Nat) : field w lo n < 2 ^ n := (w.extractLsb' lo n).isLt

/-- The flag C goes back into its bit. -/
theorem fieldC_bit (w : Word) : (fieldC w).bit = field w 17 1 := by
  have : field w 17 1 < 2 := field_lt w 17 1
  unfold fieldC; split <;> simp [Traversal.bit] <;> omega

/-- A field put back in its place has the word's bits there and 0 elsewhere. -/
theorem field_shift_bit (w : Word) (lo n k : Nat) (hk : k < 32) (hn : n ≤ 4) :
    (BitVec.ofNat 32 (field w lo n) <<< lo).getLsbD k = (decide (lo ≤ k ∧ k < lo + n) && w.getLsbD k) := by
  simp only [BitVec.getLsbD_shiftLeft, BitVec.getLsbD_ofNat, field, BitVec.testBit_toNat, BitVec.getLsbD_extractLsb']
  by_cases h : lo ≤ k
  · by_cases h2 : k < lo + n
    · simp [hk, h, h2, show k - lo < n by omega, show lo + (k - lo) = k by omega, show ¬ k < lo by omega]
      omega
    · simp [hk, h, h2, show ¬ k - lo < n by omega]
  · simp [h]

/-- A row selects a word when the word's bits under the mask are the row's. -/
theorem OpRow.selects_iff (r : OpRow) (w : Word) : r.selects w = true ↔ w &&& r.mask = r.pattern := by
  simp [OpRow.selects]

namespace Machine

/-- Bit `k` of a flag in position `j`. -/
theorem flagBit_bit (b : Bool) (j k : Nat) (hk : k < 32) : (flagBit b j).getLsbD k = (decide (k = j) && b) := by
  cases b
  · simp [flagBit]
  · simp only [flagBit, if_true, BitVec.getLsbD_shiftLeft]
    by_cases h : k = j
    · subst h; simp [hk]
    · simp [hk, h]; omega

theorem errCode_number_lt (e : ErrCode) : e.number < 16 := by cases e <;> decide

/-- Two fields that do not meet: or is sum. -/
theorem shiftLeft_or {a b i : Nat} (h : b < 2 ^ i) : a <<< i ||| b = a * 2 ^ i + b := by
  rw [← Nat.shiftLeft_add_eq_or_of_lt h, Nat.shiftLeft_eq]

theorem byteOf_toNat {n : Nat} (h : n < 256) : (byteOf n).toNat = n := by
  rw [byteOf, BitVec.toNat_ofNat, Nat.mod_eq_of_lt h]

theorem highNibble_byteOf {n : Nat} (h : n < 256) : highNibble (byteOf n) = n / 16 := by rw [highNibble, byteOf_toNat h]

theorem lowNibble_byteOf {n : Nat} (h : n < 256) : lowNibble (byteOf n) = n % 16 := by rw [lowNibble, byteOf_toNat h]

theorem lengthByte_toNat (n k : Nat) : (lengthByte n k).toNat = n / 256 ^ k % 256 := by
  rw [lengthByte, byteOf, BitVec.toNat_ofNat, Nat.shiftRight_eq_div_pow, Nat.pow_mul]

/-- A 32-bit value is its own saturation (60_exceptions.md R230). -/
theorem saturate_toNat (w : Word) : saturate w.toNat = w := by
  have := w.isLt
  rw [saturate, Nat.min_eq_left (by omega)]; simp

end Machine

end Sys2Proof
end

