-- ==== Sys2Proof/Laws/Commands.lean ====
section
/-! SUPPORT. Each operand form and each command, once: if it answers a next state, which one. Every later proof cites these
and does not unfold a command. -/

namespace Sys2Proof.Machine

/-- `t` is `s` after an error was taken. -/
def Raised (s t : State) : Prop := ∃ e i0 i1, e ≠ ErrCode.none ∧ t = raiseError e i0 i1 s

theorem fail_eq {e : ErrCode} {i0 i1 : Nat} {s t : State} (he : e ≠ .none) (h : fail e i0 i1 s = .next t) :
    Raised s t := ⟨e, i0, i1, he, by simpa [fail, eq_comm] using h⟩

theorem finish_eq {s t : State} (h : finish s = .next t) : t = complete s := by simpa [finish, eq_comm] using h

variable {s t : State} {b sb db : Nat}

/-! ### Operand forms: either the error is taken or the rest runs under what was checked -/

theorem withDest_cases {k : Result} (h : withDest db s k = .next t) :
    Raised s t ∨ db < s.nbanks ∧ k = .next t := by
  unfold withDest at h
  split at h
  · exact .inl (fail_eq (by simp) h)
  · exact .inr ⟨by omega, h⟩

theorem withRaster_cases {k : Raster → Result} (h : withRaster b s k = .next t) :
    Raised s t ∨ ∃ r, s.raster b = some r ∧ k r = .next t := by
  unfold withRaster at h
  split at h
  · exact .inl (fail_eq (by simp) h)
  · split at h
    · exact .inl (fail_eq (by simp) h)
    · exact .inr ⟨_, ‹_›, h⟩

theorem withSourceDest_cases {k : Raster → Result} (h : withSourceDest sb db s k = .next t) :
    Raised s t ∨ ∃ r, s.raster sb = some r ∧ db < s.nbanks ∧ sb ≠ db ∧ k r = .next t := by
  unfold withSourceDest at h
  split at h
  · exact .inl (fail_eq (by simp) h)
  · split at h
    · exact .inl (fail_eq (by simp) h)
    · split at h
      · exact .inl (fail_eq (by simp) h)
      · split at h
        · exact .inl (fail_eq (by simp) h)
        · exact .inr ⟨_, ‹_›, by omega, ‹_›, h⟩

theorem withPlanar_cases {r : Raster} {k : Result} (h : withPlanar b r s k = .next t) :
    Raised s t ∨ r.variant = .planar2bpp ∧ k = .next t := by
  unfold withPlanar at h
  split at h
  · exact .inl (fail_eq (by simp) h)
  · exact .inr ⟨‹_›, h⟩

theorem withPixel_cases {r : Raster} {k : Nat → Nat → Result} (h : withPixel r s k = .next t) :
    Raised s t ∨ s.arg0.toNat < 8 * r.wt.toNat ∧ s.arg1.toNat < 8 * r.ht.toNat ∧
      k s.arg0.toNat s.arg1.toNat = .next t := by
  unfold withPixel at h
  split at h
  · exact .inl (fail_eq (by simp) h)
  · split at h
    · exact .inl (fail_eq (by simp) h)
    · exact .inr ⟨by omega, by omega, h⟩

theorem withPalette_cases {v : Variant} {k : List Word → Result} (h : withPalette v s k = .next t) :
    Raised s t ∨ s.palInSize.toNat ≤ palMax v ∧ k (s.loadedPalette v) = .next t := by
  unfold withPalette at h
  split at h
  · exact .inl (fail_eq (by simp) h)
  · exact .inr ⟨by omega, h⟩

theorem withGeometry_cases {k : Word → Word → Result} (h : withGeometry s k = .next t) :
    Raised s t ∨ 1 ≤ s.arg0.toNat ∧ 1 ≤ s.arg1.toNat ∧ s.arg0.toNat * s.arg1.toNat ≤ s.cfg.bankTiles ∧
      k s.arg0 s.arg1 = .next t := by
  unfold withGeometry at h
  split at h
  · exact .inl (fail_eq (by simp) h)
  · split at h
    · exact .inl (fail_eq (by simp) h)
    · split at h
      · exact .inl (fail_eq (by simp) h)
      · exact .inr ⟨by omega, by omega, by omega, h⟩

theorem withBuffer_cases {a n : Nat} {k : Result} (h : withBuffer a n s k = .next t) :
    Raised s t ∨ s.inMem a n ∧ k = .next t := by
  unfold withBuffer at h
  split at h
  · exact .inr ⟨‹_›, h⟩
  · exact .inl (fail_eq (by simp) h)

/-- A machine that wrote an output buffer. -/
def wroteOutput (s : State) (out : List Byte) : State :=
  { s.memWrite s.dstAddr.toNat out with dstLen := BitVec.ofNat 32 out.length }

/-- A byte outside a written output buffer reads as before. -/
theorem memByte_wroteOutput_outside {out : List Byte} {a : Nat}
    (h : a < s.dstAddr.toNat ∨ s.dstAddr.toNat + out.length ≤ a) : (wroteOutput s out).memByte a = s.memByte a :=
  memByte_memWrite_outside h

/-- A written output buffer reads back. -/
theorem memRead_wroteOutput (s : State) (out : List Byte) :
    (wroteOutput s out).memRead s.dstAddr.toNat out.length = out := memRead_memWrite s _ out

/-- DST_LEN after an output that fits. -/
theorem dstLen_wroteOutput {out : List Byte} (h : out.length ≤ s.dstCap.toNat) :
    (wroteOutput s out).dstLen.toNat = out.length := by
  have := s.dstCap.isLt
  show (BitVec.ofNat 32 out.length).toNat = _
  rw [BitVec.toNat_ofNat, Nat.mod_eq_of_lt (by omega)]

theorem emit_cases {out : List Byte} (h : emit out s = .next t) :
    Raised s t ∨ out.length ≤ s.dstCap.toNat ∧ t = complete (wroteOutput s out) := by
  unfold emit at h
  split at h
  · exact .inl (fail_eq (by simp) h)
  · exact .inr ⟨by omega, finish_eq h⟩

/-! ### The operand forms when their checks pass -/

theorem withDest_ok {k : Result} (h : db < s.nbanks) : withDest db s k = k := by
  simp [withDest, Nat.not_le.mpr h]

theorem withRaster_ok {r : Raster} {k : Raster → Result} (h : s.raster b = some r) : withRaster b s k = k r := by
  simp [withRaster, Nat.not_le.mpr (raster_lt h), h]

theorem withSourceDest_ok {r : Raster} {k : Raster → Result} (h : s.raster sb = some r) (hd : db < s.nbanks)
    (hne : sb ≠ db) : withSourceDest sb db s k = k r := by
  simp [withSourceDest, Nat.not_le.mpr (raster_lt h), Nat.not_le.mpr hd, hne, h]

theorem withPlanar_ok {r : Raster} {k : Result} (h : r.variant = .planar2bpp) : withPlanar b r s k = k := by
  simp [withPlanar, h]

theorem withPixel_ok {r : Raster} {k : Nat → Nat → Result} (hx : s.arg0.toNat < 8 * r.wt.toNat)
    (hy : s.arg1.toNat < 8 * r.ht.toNat) : withPixel r s k = k s.arg0.toNat s.arg1.toNat := by
  simp [withPixel, Nat.not_le.mpr hx, Nat.not_le.mpr hy]

theorem withPalette_ok {v : Variant} {k : List Word → Result} (h : s.palInSize.toNat ≤ palMax v) :
    withPalette v s k = k (s.loadedPalette v) := by
  simp [withPalette, Nat.not_lt.mpr h]

theorem withGeometry_ok {k : Word → Word → Result} (hw : 1 ≤ s.arg0.toNat) (hh : 1 ≤ s.arg1.toNat)
    (hc : s.arg0.toNat * s.arg1.toNat ≤ s.cfg.bankTiles) : withGeometry s k = k s.arg0 s.arg1 := by
  rw [withGeometry, if_neg (by omega), if_neg (by omega), if_neg (by omega)]

theorem withBuffer_ok {a n : Nat} {k : Result} (h : a + n ≤ s.cfg.memSize) : withBuffer a n s k = k := by
  simp [withBuffer, State.inMem, h]

theorem emit_ok {out : List Byte} (h : out.length ≤ s.dstCap.toNat) :
    emit out s = .next (complete (wroteOutput s out)) := by
  simp [emit, Nat.not_lt.mpr h, finish, wroteOutput]

/-! ### The commands -/

theorem tdec_cases {v : Variant} {c : Traversal} (h : tdec v db c s = .next t) :
    Raised s t ∨ db < s.nbanks ∧ s.palInSize.toNat ≤ palMax v ∧ 1 ≤ s.arg0.toNat ∧ 1 ≤ s.arg1.toNat ∧
      s.arg0.toNat * s.arg1.toNat ≤ s.cfg.bankTiles ∧ s.inMem s.srcAddr.toNat s.srcLen.toNat ∧
      t = complete (buildFrom (s.memRead s.srcAddr.toNat s.srcLen.toNat) v c db (s.loadedPalette v) s.arg0 s.arg1
        s) := by
  rcases withDest_cases h with h | ⟨hd, h⟩
  · exact .inl h
  rcases withPalette_cases h with h | ⟨hp, h⟩
  · exact .inl h
  rcases withGeometry_cases h with h | ⟨hw, hh, hc, h⟩
  · exact .inl h
  rcases withBuffer_cases h with h | ⟨hb, h⟩
  · exact .inl h
  · exact .inr ⟨hd, hp, hw, hh, hc, hb, finish_eq h⟩

theorem tnew_cases {v : Variant} {c : Traversal} (h : tnew v db c s = .next t) :
    Raised s t ∨ db < s.nbanks ∧ s.palInSize.toNat ≤ palMax v ∧ 1 ≤ s.arg0.toNat ∧ 1 ≤ s.arg1.toNat ∧
      s.arg0.toNat * s.arg1.toNat ≤ s.cfg.bankTiles ∧
      t = complete (buildFrom [] v c db (s.loadedPalette v) s.arg0 s.arg1 s) := by
  rcases withDest_cases h with h | ⟨hd, h⟩
  · exact .inl h
  rcases withPalette_cases h with h | ⟨hp, h⟩
  · exact .inl h
  rcases withGeometry_cases h with h | ⟨hw, hh, hc, h⟩
  · exact .inl h
  · exact .inr ⟨hd, hp, hw, hh, hc, finish_eq h⟩

theorem execTenc_cases (h : execTenc sb s = .next t) :
    Raised s t ∨ ∃ r, s.raster sb = some r ∧ s.inMem s.dstAddr.toNat s.dstCap.toNat ∧
      (encodeGrid r.samples r.wt.toNat r.ht.toNat r.variant r.order).length ≤ s.dstCap.toNat ∧
      t = complete (wroteOutput s (encodeGrid r.samples r.wt.toNat r.ht.toNat r.variant r.order)) := by
  rcases withRaster_cases h with h | ⟨r, hr, h⟩
  · exact .inl h
  rcases withBuffer_cases h with h | ⟨hb, h⟩
  · exact .inl h
  rcases emit_cases h with h | ⟨hl, h⟩
  · exact .inl h
  · exact .inr ⟨r, hr, hb, hl, h⟩

theorem execTpxg_cases (h : execTpxg sb s = .next t) :
    Raised s t ∨ ∃ r, s.raster sb = some r ∧ s.arg0.toNat < 8 * r.wt.toNat ∧ s.arg1.toNat < 8 * r.ht.toNat ∧
      t = complete { s with result := (r.sample s.arg0.toNat s.arg1.toNat).setWidth 32 } := by
  rcases withRaster_cases h with h | ⟨r, hr, h⟩
  · exact .inl h
  rcases withPixel_cases h with h | ⟨hx, hy, h⟩
  · exact .inl h
  · exact .inr ⟨r, hr, hx, hy, finish_eq h⟩

theorem execTpxs_cases (h : execTpxs db s = .next t) :
    Raised s t ∨ ∃ r, s.raster db = some r ∧ s.arg0.toNat < 8 * r.wt.toNat ∧ s.arg1.toNat < 8 * r.ht.toNat ∧
      s.arg2.toNat < sampleLimit r.variant ∧
      t = complete (s.setRaster db (r.setSample s.arg0.toNat s.arg1.toNat (s.arg2.setWidth 4)).dropPlanes) := by
  rcases withRaster_cases h with h | ⟨r, hr, h⟩
  · exact .inl h
  rcases withPixel_cases h with h | ⟨hx, hy, h⟩
  · exact .inl h
  split at h
  · exact .inl (fail_eq (by simp) h)
  · exact .inr ⟨r, hr, hx, hy, by omega, finish_eq h⟩

theorem tbpl_cases {n : Plane} (h : tbpl n sb s = .next t) :
    Raised s t ∨ ∃ r, s.raster sb = some r ∧ r.variant = .planar2bpp ∧
      t = complete (s.setRaster sb (r.fillPlane n)) := by
  rcases withRaster_cases h with h | ⟨r, hr, h⟩
  · exact .inl h
  rcases withPlanar_cases h with h | ⟨hv, h⟩
  · exact .inl h
  · exact .inr ⟨r, hr, hv, finish_eq h⟩

theorem tpxgPlane_cases {n : Plane} (h : tpxgPlane n sb s = .next t) :
    Raised s t ∨ ∃ r, s.raster sb = some r ∧ r.variant = .planar2bpp ∧ s.arg0.toNat < 8 * r.wt.toNat ∧
      s.arg1.toNat < 8 * r.ht.toNat ∧
      t = complete { s.setRaster sb (r.fillPlane n) with
        result := ((r.fillPlane n).planeBit n s.arg0.toNat s.arg1.toNat).setWidth 32 } := by
  rcases withRaster_cases h with h | ⟨r, hr, h⟩
  · exact .inl h
  rcases withPlanar_cases h with h | ⟨hv, h⟩
  · exact .inl h
  rcases withPixel_cases h with h | ⟨hx, hy, h⟩
  · exact .inl h
  · exact .inr ⟨r, hr, hv, hx, hy, finish_eq h⟩

theorem execTxrng_cases (h : execTxrng sb db s = .next t) :
    Raised s t ∨ ∃ r, s.raster sb = some r ∧ db < s.nbanks ∧ sb ≠ db ∧ s.arg0.toNat < s.arg1.toNat ∧
      s.arg1.toNat ≤ r.wt.toNat * r.ht.toNat ∧
      t = complete (s.setRaster db (r.derive (BitVec.ofNat 32 (s.arg1.toNat - s.arg0.toNat)) 1
        (r.rangeSamples s.arg0.toNat (s.arg1.toNat - s.arg0.toNat)))) := by
  rcases withSourceDest_cases h with h | ⟨r, hr, hd, hne, h⟩
  · exact .inl h
  dsimp only at h
  split at h
  · exact .inl (fail_eq (by simp) h)
  split at h
  · exact .inl (fail_eq (by simp) h)
  · exact .inr ⟨r, hr, hd, hne, by omega, by omega, finish_eq h⟩

theorem execTxrct_cases (h : execTxrct sb db s = .next t) :
    Raised s t ∨ ∃ r, s.raster sb = some r ∧ db < s.nbanks ∧ sb ≠ db ∧ 1 ≤ s.arg2.toNat ∧ 1 ≤ s.arg3.toNat ∧
      s.arg0.toNat + s.arg2.toNat ≤ r.wt.toNat ∧ s.arg1.toNat + s.arg3.toNat ≤ r.ht.toNat ∧
      t = complete (s.setRaster db (r.derive s.arg2 s.arg3
        (r.rectSamples s.arg0.toNat s.arg1.toNat s.arg2.toNat s.arg3.toNat))) := by
  rcases withSourceDest_cases h with h | ⟨r, hr, hd, hne, h⟩
  · exact .inl h
  dsimp only at h
  split at h
  · exact .inl (fail_eq (by simp) h)
  split at h
  · exact .inl (fail_eq (by simp) h)
  split at h
  · exact .inl (fail_eq (by simp) h)
  split at h
  · exact .inl (fail_eq (by simp) h)
  · exact .inr ⟨r, hr, hd, hne, by omega, by omega, by omega, by omega, finish_eq h⟩

theorem execTxfrm_cases (h : execTxfrm sb db s = .next t) :
    Raised s t ∨ ∃ r, s.raster sb = some r ∧ db < s.nbanks ∧ sb ≠ db ∧ 1 ≤ s.frameW.toNat ∧ 1 ≤ s.frameH.toNat ∧
      r.wt.toNat % s.frameW.toNat = 0 ∧ r.ht.toNat % s.frameH.toNat = 0 ∧
      s.arg0.toNat < r.wt.toNat / s.frameW.toNat * (r.ht.toNat / s.frameH.toNat) ∧
      t = complete (s.setRaster db (r.derive s.frameW s.frameH
        (r.rectSamples (s.arg0.toNat % (r.wt.toNat / s.frameW.toNat) * s.frameW.toNat)
          (s.arg0.toNat / (r.wt.toNat / s.frameW.toNat) * s.frameH.toNat) s.frameW.toNat s.frameH.toNat))) := by
  rcases withSourceDest_cases h with h | ⟨r, hr, hd, hne, h⟩
  · exact .inl h
  dsimp only at h
  split at h
  · exact .inl (fail_eq (by simp) h)
  split at h
  · exact .inl (fail_eq (by simp) h)
  split at h
  · exact .inl (fail_eq (by simp) h)
  split at h
  · exact .inl (fail_eq (by simp) h)
  · exact .inr ⟨r, hr, hd, hne, by omega, by omega, by omega, by omega, by omega, finish_eq h⟩

theorem lzc_cases {v : LzVariant} (h : lzc v s = .next t) :
    Raised s t ∨ s.inMem s.srcAddr.toNat s.srcLen.toNat ∧ s.inMem s.dstAddr.toNat s.dstCap.toNat ∧
      ¬ s.buffersOverlap ∧
      (compress s.cfg.lzTie v (s.memRead s.srcAddr.toNat s.srcLen.toNat)).length ≤ s.dstCap.toNat ∧
      t = complete (wroteOutput s (compress s.cfg.lzTie v (s.memRead s.srcAddr.toNat s.srcLen.toNat))) := by
  rcases withBuffer_cases h with h | ⟨hs, h⟩
  · exact .inl h
  rcases withBuffer_cases h with h | ⟨hd, h⟩
  · exact .inl h
  split at h
  · exact .inl (fail_eq (by simp) h)
  rcases emit_cases h with h | ⟨hl, h⟩
  · exact .inl h
  · exact .inr ⟨hs, hd, ‹_›, hl, h⟩

end Sys2Proof.Machine
end

