-- ==== Sys2Proof/Laws/Grid.lean ====
section
/-! SUPPORT. The tile walk (40_tile_grid.md R100, R101) and grids as lists. -/

namespace Sys2Proof.Machine

/-! ### The tile walk -/

/-- A tile position of an index in range is in range (R101). -/
theorem tilePos_lt {t wt ht : Nat} {c : Traversal} (hw : 1 ≤ wt) (hh : 1 ≤ ht) (h : t < wt * ht) :
    (tilePos t wt ht c).1 < wt ∧ (tilePos t wt ht c).2 < ht := by
  cases c
  · exact ⟨Nat.mod_lt _ hw, Nat.div_lt_of_lt_mul h⟩
  · exact ⟨Nat.div_lt_of_lt_mul (Nat.mul_comm wt ht ▸ h), Nat.mod_lt _ hh⟩

/-- `tileIndex` inverts `tilePos` (R101). -/
theorem tileIndex_tilePos (t wt ht : Nat) (c : Traversal) :
    tileIndex (tilePos t wt ht c).1 (tilePos t wt ht c).2 wt ht c = t := by
  cases c <;> exact Nat.div_add_mod' t _

/-- `tilePos` inverts `tileIndex` on the grid (R101). -/
theorem tilePos_tileIndex {x y wt ht : Nat} {c : Traversal} (hx : x < wt) (hy : y < ht) :
    tilePos (tileIndex x y wt ht c) wt ht c = (x, y) := by
  cases c
  · have hw : 0 < wt := by omega
    simp [tilePos, tileIndex, Nat.add_div hw, Nat.mod_eq_of_lt hx, Nat.div_eq_of_lt hx,
      Nat.mul_div_cancel _ hw, hx]
  · have hh : 0 < ht := by omega
    simp [tilePos, tileIndex, Nat.add_div hh, Nat.mod_eq_of_lt hy, Nat.div_eq_of_lt hy,
      Nat.mul_div_cancel _ hh, hy]

/-- A tile index of a position on the grid is in range (R101). -/
theorem tileIndex_lt {x y wt ht : Nat} {c : Traversal} (hx : x < wt) (hy : y < ht) :
    tileIndex x y wt ht c < wt * ht := by
  cases c
  · calc y * wt + x < y * wt + wt := by omega
      _ = (y + 1) * wt := by ring
      _ ≤ ht * wt := Nat.mul_le_mul_right _ hy
      _ = wt * ht := Nat.mul_comm _ _
  · calc x * ht + y < x * ht + ht := by omega
      _ = (x + 1) * ht := by ring
      _ ≤ wt * ht := Nat.mul_le_mul_right _ hx

/-! ### Grids -/

variable {α : Type}

@[simp] theorem gridOf_length (w h : Nat) (f : Nat → Nat → α) : (gridOf w h f).length = w * h := by
  simp [gridOf]

/-- The place of a cell in the list of a grid. -/
theorem cell_lt {w h x y : Nat} (hx : x < w) (hy : y < h) : y * w + x < w * h := by
  calc y * w + x < y * w + w := by omega
    _ = (y + 1) * w := by ring
    _ ≤ h * w := Nat.mul_le_mul_right _ hy
    _ = w * h := Nat.mul_comm _ _

/-- Two cells with one place are one cell. -/
theorem cell_inj {w x y x' y' : Nat} (hx : x < w) (hx' : x' < w) (h : y * w + x = y' * w + x') :
    x = x' ∧ y = y' := by
  have hw : 0 < w := by omega
  have h1 := congrArg (· % w) h
  have h2 := congrArg (· / w) h
  simp only [Nat.mul_comm _ w, Nat.mul_add_mod, Nat.mod_eq_of_lt hx, Nat.mod_eq_of_lt hx',
    Nat.mul_add_div hw, Nat.div_eq_of_lt hx, Nat.div_eq_of_lt hx'] at h1 h2
  exact ⟨h1, by simpa using h2⟩

theorem gridOf_getElem? (f : Nat → Nat → α) {w h x y : Nat} (hx : x < w) (hy : y < h) :
    (gridOf w h f)[y * w + x]? = some (f x y) := by
  have hw : 0 < w := by omega
  have e1 : (y * w + x) % w = x := by rw [Nat.mul_comm, Nat.mul_add_mod, Nat.mod_eq_of_lt hx]
  have e2 : (y * w + x) / w = y := by
    rw [Nat.mul_comm, Nat.mul_add_div hw, Nat.div_eq_of_lt hx, Nat.add_zero]
  simp [gridOf, cell_lt hx hy, e1, e2]

/-- The cell a grid was made from. -/
theorem gridAt_gridOf (f : Nat → Nat → α) {w h x y : Nat} (d : α) (hx : x < w) (hy : y < h) :
    gridAt (gridOf w h f) w x y d = f x y := by
  rw [gridAt, List.getD_eq_getElem?_getD, gridOf_getElem? f hx hy, Option.getD_some]

/-- A list of the right length is the grid of its own cells. -/
theorem gridOf_gridAt (g : List α) (w h : Nat) (d : α) (hl : g.length = w * h) :
    gridOf w h (fun x y => gridAt g w x y d) = g := by
  refine List.ext_getElem (by simp [hl]) fun i h1 h2 => ?_
  simp [gridOf, gridAt, Nat.div_add_mod' i w, h2]

/-- Two grids of functions that agree on the grid are equal. -/
theorem gridOf_congr {w h : Nat} {f g : Nat → Nat → α} (hfg : ∀ x y, x < w → y < h → f x y = g x y) :
    gridOf w h f = gridOf w h g := by
  refine List.map_congr_left fun i hi => ?_
  have hi : i < w * h := List.mem_range.mp hi
  have hw : 0 < w := by
    rcases Nat.eq_zero_or_pos w with h0 | h0
    · simp [h0] at hi
    · exact h0
  exact hfg _ _ (Nat.mod_lt _ hw) (Nat.div_lt_of_lt_mul hi)

theorem mem_gridOf {w h : Nat} {f : Nat → Nat → α} {v : α} (hv : v ∈ gridOf w h f) :
    ∃ x y, x < w ∧ y < h ∧ f x y = v := by
  obtain ⟨i, hi, rfl⟩ := List.mem_map.mp hv
  have hi : i < w * h := List.mem_range.mp hi
  have hw : 0 < w := by
    rcases Nat.eq_zero_or_pos w with h0 | h0
    · simp [h0] at hi
    · exact h0
  exact ⟨_, _, Nat.mod_lt _ hw, Nat.div_lt_of_lt_mul hi, rfl⟩

/-- Writing one cell changes that cell only. -/
theorem gridAt_set {g : List α} {w h x y x' y' : Nat} {v d : α} (hl : g.length = w * h) (hx : x < w) (hy : y < h)
    (hx' : x' < w) :
    gridAt (g.set (y * w + x) v) w x' y' d = if x' = x ∧ y' = y then v else gridAt g w x' y' d := by
  split
  · next he =>
    obtain ⟨rfl, rfl⟩ := he
    have : y' * w + x' < g.length := hl ▸ cell_lt hx hy
    simp [gridAt, List.getD_eq_getElem?_getD, this]
  · next hne =>
    have : y * w + x ≠ y' * w + x' := fun he => hne ((cell_inj hx hx' he).imp Eq.symm Eq.symm)
    simp [gridAt, List.getD_eq_getElem?_getD, List.getElem?_set_ne this]

/-- A cell of a list is an element of it, or the default past its end. -/
theorem gridAt_mem {g : List α} {w x y : Nat} {d : α} : gridAt g w x y d ∈ g ∨ gridAt g w x y d = d := by
  rcases Nat.lt_or_ge (y * w + x) g.length with h | h
  · left; rw [gridAt, List.getD_eq_getElem _ _ h]; exact List.getElem_mem h
  · right; rw [gridAt, List.getD_eq_default _ _ h]

/-! ### Fixed-size blocks -/

/-- Block `t` of a concatenation of blocks of one length. -/
theorem block_flatMap_range {f : Nat → List α} {k n t : Nat} (hf : ∀ i, (f i).length = k) (ht : t < n) :
    (((List.range n).flatMap f).drop (t * k)).take k = f t := by
  induction n generalizing t with
  | zero => omega
  | succ n ih =>
    have hlen : ((List.range n).flatMap f).length = n * k := by simp [List.length_flatMap, hf]
    rw [List.range_succ, List.flatMap_append]
    rcases Nat.lt_or_ge t n with h | h
    · have hle : t * k + k ≤ n * k := by
        calc t * k + k = (t + 1) * k := by ring
          _ ≤ n * k := Nat.mul_le_mul_right _ h
      rw [List.drop_append_of_le_length (by omega), List.take_append_of_le_length (by rw [List.length_drop]; omega),
        ih h]
    · have : t = n := by omega
      subst this
      have : (((List.range t).flatMap f) ++ [t].flatMap f).drop (t * k) = f t := by
        rw [← hlen, List.drop_left]; simp
      rw [this, ← hf t, List.take_length]

theorem length_flatMap_range {f : Nat → List α} {k : Nat} (n : Nat) (hf : ∀ i, (f i).length = k) :
    ((List.range n).flatMap f).length = n * k := by simp [List.length_flatMap, hf]

/-- A list of `n` blocks is the concatenation of its blocks. -/
theorem flatMap_blocks {l : List α} {k : Nat} (n : Nat) (hl : l.length = n * k) :
    ((List.range n).flatMap fun t => (l.drop (t * k)).take k) = l := by
  induction n generalizing l with
  | zero => rw [Nat.zero_mul, List.length_eq_zero_iff] at hl; simp [hl]
  | succ n ih =>
    rw [List.range_succ, List.flatMap_append, List.flatMap_singleton]
    have h1 : (l.take (n * k)).length = n * k := by
      rw [List.length_take, hl]; exact Nat.min_eq_left (Nat.mul_le_mul_right _ (Nat.le_succ n))
    have h2 : ((List.range n).flatMap fun t => (l.drop (t * k)).take k) = l.take (n * k) := by
      rw [← ih h1]
      refine List.flatMap_congr fun t ht => ?_
      have ht : t < n := List.mem_range.mp ht
      have hle : t * k + k ≤ n * k := by
        calc t * k + k = (t + 1) * k := by ring
          _ ≤ n * k := Nat.mul_le_mul_right _ ht
      rw [List.drop_take, List.take_take, Nat.min_eq_left (by omega)]
    have h3 : (l.drop (n * k)).take k = l.drop (n * k) := by
      apply List.take_of_length_le; rw [List.length_drop, hl, Nat.succ_mul]; omega
    rw [h2, h3, List.take_append_drop]

end Sys2Proof.Machine
end

