-- ==== Sys2Proof/Laws/Tiles.lean ====
section
/-! SUPPORT. The two tile formats and the grid functions built on them: lengths, what they depend on, ranges. -/

namespace Sys2Proof.Machine

theorem pack4_length (tile : Nat → Nat → Sample) : (pack4 tile).length = 32 := rfl

theorem pack2_length (tile : Nat → Nat → Sample) : (pack2 tile).length = 16 := rfl

/-- A packed tile has BPT bytes (R131, R141). -/
theorem pack_length (v : Variant) (tile : Nat → Nat → Sample) : (pack v tile).length = bytesPerTile v := by
  cases v
  · exact pack4_length tile
  · exact pack2_length tile

/-- Byte `4r + k` of a packed tile (R131). -/
theorem pack4_getD (tile : Nat → Nat → Sample) {r k : Nat} (hr : r < 8) (hk : k < 4) :
    (pack4 tile).getD (4 * r + k) 0 = (tile r (2 * k + 1)).setWidth 8 <<< 4 ||| (tile r (2 * k)).setWidth 8 := by
  interval_cases k <;> interval_cases r <;> rfl

/-- The two bytes of row `r` of a planar tile (R141). -/
theorem pack2_getD (tile : Nat → Nat → Sample) {r : Nat} (hr : r < 8) :
    (pack2 tile).getD (2 * r) 0 = planeByte tile r 0 ∧ (pack2 tile).getD (2 * r + 1) 0 = planeByte tile r 1 := by
  interval_cases r <;> exact ⟨rfl, rfl⟩

/-- A byte is the OR of its bits, each in its place. -/
theorem foldl_bits : ∀ b : Byte,
    (List.range 8).foldl (fun acc c => acc ||| (b >>> (7 - c) &&& 1) <<< (7 - c)) 0 = b := by decide

/-- Bit `7 - c` of an OR of bits in their places. -/
theorem bit_foldl (g : Nat → BitVec 1) {c : Nat} (hc : c < 8) :
    ((List.range 8).foldl (fun acc c => acc ||| (g c).setWidth 8 <<< (7 - c)) (0 : Byte)) >>> (7 - c) &&& 1 =
      (g c).setWidth 8 := by
  have key : ∀ a b c d e f g h : BitVec 1,
      let x : Byte := 0 ||| a.setWidth 8 <<< 7 ||| b.setWidth 8 <<< 6 ||| c.setWidth 8 <<< 5 ||| d.setWidth 8 <<< 4
        ||| e.setWidth 8 <<< 3 ||| f.setWidth 8 <<< 2 ||| g.setWidth 8 <<< 1 ||| h.setWidth 8 <<< 0
      x >>> 7 &&& 1 = a.setWidth 8 ∧ x >>> 6 &&& 1 = b.setWidth 8 ∧ x >>> 5 &&& 1 = c.setWidth 8 ∧
        x >>> 4 &&& 1 = d.setWidth 8 ∧ x >>> 3 &&& 1 = e.setWidth 8 ∧ x >>> 2 &&& 1 = f.setWidth 8 ∧
        x >>> 1 &&& 1 = g.setWidth 8 ∧ x >>> 0 &&& 1 = h.setWidth 8 := by decide +kernel
  have k := key (g 0) (g 1) (g 2) (g 3) (g 4) (g 5) (g 6) (g 7)
  interval_cases c
  exacts [k.1, k.2.1, k.2.2.1, k.2.2.2.1, k.2.2.2.2.1, k.2.2.2.2.2.1, k.2.2.2.2.2.2.1, k.2.2.2.2.2.2.2]

/-- Packing looks at the 64 samples of the tile only. -/
theorem pack_congr (v : Variant) {f g : Nat → Nat → Sample} (h : ∀ r c, r < 8 → c < 8 → f r c = g r c) :
    pack v f = pack v g := by
  cases v
  · simp only [pack, pack4]
    refine List.flatMap_congr fun r hr => List.map_congr_left fun k hk => ?_
    have hr : r < 8 := List.mem_range.mp hr
    have hk : k < 4 := List.mem_range.mp hk
    rw [h r _ hr (by omega), h r _ hr (by omega)]
  · simp only [pack, pack2]
    refine List.flatMap_congr fun r hr => ?_
    have hr : r < 8 := List.mem_range.mp hr
    have hp : ∀ n, planeByte f r n = planeByte g r n := fun n =>
      List.foldl_ext _ _ _ fun acc c hc => by
        rw [h r c hr (List.mem_range.mp hc)]
    rw [hp, hp]

/-- Unpacking looks at the bytes of the tile by place only. -/
theorem unpack_congr (v : Variant) {t u : List Byte} (h : ∀ i < bytesPerTile v, t[i]? = u[i]?) {r c : Nat} (hr : r < 8)
    (hc : c < 8) : unpack v t r c = unpack v u r c := by
  cases v
  · simp only [unpack, unpack4, List.getD_eq_getElem?_getD, h (4 * r + c / 2) (by simp [bytesPerTile]; omega)]
  · simp only [unpack, unpack2, List.getD_eq_getElem?_getD, h (2 * r) (by simp [bytesPerTile]; omega),
      h (2 * r + 1) (by simp [bytesPerTile]; omega)]

/-- An unpacked sample is a legal sample of its variant (10_state.md R44). -/
theorem unpack_lt (v : Variant) (t : List Byte) (r c : Nat) : (unpack v t r c).toNat < sampleLimit v := by
  cases v
  · exact (unpack4 t r c).isLt
  · have bit : ∀ b : Byte, (b &&& 1).toNat ≤ 1 := fun b => by
      rw [BitVec.toNat_and]; exact Nat.and_le_right
    have key : ∀ x y : Byte, x.toNat ≤ 1 → y.toNat ≤ 1 → ((x <<< 1 ||| y).setWidth 4 : Sample).toNat < 4 := by
      intro x y hx hy
      have hx : x = 0 ∨ x = 1 := by
        rcases Nat.le_one_iff_eq_zero_or_eq_one.mp hx with h | h
        · exact .inl (BitVec.eq_of_toNat_eq h)
        · exact .inr (BitVec.eq_of_toNat_eq h)
      have hy : y = 0 ∨ y = 1 := by
        rcases Nat.le_one_iff_eq_zero_or_eq_one.mp hy with h | h
        · exact .inl (BitVec.eq_of_toNat_eq h)
        · exact .inr (BitVec.eq_of_toNat_eq h)
      rcases hx with rfl | rfl <;> rcases hy with rfl | rfl <;> decide
    exact key _ _ (bit _) (bit _)

@[simp] theorem decodeGrid_length (b : List Byte) (wt ht : Nat) (v : Variant) (c : Traversal) :
    (decodeGrid b wt ht v c).length = 8 * wt * (8 * ht) := by simp [decodeGrid]

/-- Every decoded sample is a legal sample of the variant (10_state.md R44). -/
theorem decodeGrid_lt {b : List Byte} {wt ht : Nat} {v : Variant} {c : Traversal} {x : Sample}
    (h : x ∈ decodeGrid b wt ht v c) : x.toNat < sampleLimit v := by
  obtain ⟨i, j, -, -, rfl⟩ := mem_gridOf h
  dsimp only
  split
  · exact unpack_lt v _ _ _
  · cases v <;> decide

/-- An empty buffer decodes to zero samples (R105). -/
theorem decodeGrid_nil (wt ht : Nat) (v : Variant) (c : Traversal) :
    decodeGrid [] wt ht v c = List.replicate (8 * wt * (8 * ht)) 0 := by
  refine List.eq_replicate_iff.mpr ⟨by simp, fun x hx => ?_⟩
  obtain ⟨i, j, -, -, rfl⟩ := mem_gridOf hx
  simp [availTiles]

/-- The length of an encoded grid (40_tile_grid.md R106). -/
theorem encodeGrid_length (g : List Sample) (wt ht : Nat) (v : Variant) (c : Traversal) :
    (encodeGrid g wt ht v c).length = wt * ht * bytesPerTile v := length_flatMap_range _ fun _ => pack_length _ _

/-- The tile of a grid at a position, out of a grid that is given by a function. -/
theorem gridTile_gridOf {w h : Nat} {f : Nat → Nat → Sample} {pos : Nat × Nat} {r c : Nat} (hx : pos.1 < w)
    (hy : pos.2 < h) (hr : r < 8) (hc : c < 8) :
    gridTile (gridOf (8 * w) (8 * h) f) w pos r c = f (8 * pos.1 + c) (8 * pos.2 + r) :=
  gridAt_gridOf f 0 (by omega) (by omega)

end Sys2Proof.Machine
end

