-- ==== Sys2Proof/Laws/Checks.lean ====
section
/-! SUPPORT. Each operand form against its part of the check list of 60_exceptions.md R232: if the rest of the command reports its first
failing check, so does the form followed by the rest. -/

namespace Sys2Proof.Machine

/-- The command completes, from acceptance, without error. -/
def Completes (s : State) (o : Result) : Prop :=
  ∃ t, o = .next t ∧ t.busy = false ∧ t.done = true ∧ t.err = false ∧ t.errCode = s.errCode ∧
    t.errInfo0 = s.errInfo0 ∧ t.errInfo1 = s.errInfo1

/-- The outcome reports the first failing check of the list, or completes. -/
abbrev Reports (s : State) (o : Result) (cs : List Check) : Prop := firstFailing s o (Completes s o) cs

variable {s : State} {b d : Nat} {cs : List Check}

theorem reports_if {e : ErrCode} {i0 i1 : Nat} {p : Prop} [Decidable p] {k : Result} (h : Reports s k cs) :
    Reports s (if p then fail e i0 i1 s else k) (⟨p, e, i0, i1⟩ :: cs) := by
  refine ⟨fun hf => ?_, fun hf => ?_⟩
  · dsimp only at hf; rw [if_pos hf]; rfl
  · dsimp only at hf; rw [if_neg hf]; exact h

theorem reports_finish {u : State} (h1 : u.errCode = s.errCode) (h2 : u.errInfo0 = s.errInfo0)
    (h3 : u.errInfo1 = s.errInfo1) : Reports s (finish u) [] := ⟨_, rfl, rfl, rfl, rfl, h1, h2, h3⟩

theorem reports_emit {out : List Byte} :
    Reports s (emit out s) [⟨s.dstCap.toNat < out.length, .overflow, out.length, s.dstCap.toNat⟩] :=
  reports_if (reports_finish rfl rfl rfl)

theorem reports_withDest {k : Result} (h : Reports s k cs) : Reports s (withDest b s k) (bankExists s b :: cs) :=
  reports_if h

theorem reports_withPalette {v : Variant} {k : List Word → Result} (h : Reports s (k (s.loadedPalette v)) cs) :
    Reports s (withPalette v s k)
      (⟨palMax v < s.palInSize.toNat, .palette, s.palInSize.toNat, palMax v⟩ :: cs) := reports_if h

theorem reports_withGeometry {k : Word → Word → Result} (h : Reports s (k s.arg0 s.arg1) cs) :
    Reports s (withGeometry s k) (⟨s.arg0.toNat = 0, .range, 0, 1⟩ :: ⟨s.arg1.toNat = 0, .range, 0, 1⟩ ::
      ⟨s.cfg.bankTiles < s.arg0.toNat * s.arg1.toNat, .capacity, s.arg0.toNat * s.arg1.toNat, s.cfg.bankTiles⟩ :: cs) :=
  reports_if <| reports_if <| reports_if h

theorem reports_withPixel {r : Raster} {k : Nat → Nat → Result} (h : Reports s (k s.arg0.toNat s.arg1.toNat) cs) :
    Reports s (withPixel r s k) (pixelChecks s r ++ cs) := reports_if <| reports_if h

theorem reports_withBuffer {a n : Nat} {k : Result} (h : Reports s k cs) :
    Reports s (withBuffer a n s k) (rangeInMem s a n :: cs) := by
  refine ⟨fun hf => ?_, fun hf => ?_⟩
  · simp only [rangeInMem] at hf ⊢; rw [withBuffer, if_neg (Nat.not_le.mpr hf)]; rfl
  · rw [withBuffer_ok (by simpa [rangeInMem] using hf)]; exact h

theorem reports_withPlanar {r : Raster} {k : Result} (h : Reports s k cs) :
    Reports s (withPlanar b r s k) (planarOnly r b :: cs) := by
  refine ⟨fun hf => ?_, fun hf => ?_⟩
  · simp only [planarOnly] at hf ⊢; rw [withPlanar, hf]; rfl
  · simp only [planarOnly] at hf; rw [withPlanar_ok (by cases hv : r.variant <;> simp_all)]; exact h

theorem reports_withRaster {k : Raster → Result} {f : Raster → List Check}
    (h : ∀ r, s.raster b = some r → Reports s (k r) (cs ++ f r)) :
    Reports s (withRaster b s k) ([bankExists s b, bankValid s b] ++ cs ++ rasterChecks s b f) := by
  simp only [List.cons_append, List.nil_append]
  refine ⟨fun hf => ?_, fun hf => ⟨fun hf2 => ?_, fun hf2 => ?_⟩⟩
  · simp only [bankExists] at hf ⊢; simp [withRaster, hf, fail, raiseError, saturate]
  · simp only [bankExists] at hf; simp only [bankValid] at hf2 ⊢; simp [withRaster, hf, hf2, fail, raiseError, saturate]
  · obtain ⟨r, hr⟩ := Option.ne_none_iff_exists'.mp hf2
    rw [withRaster_ok hr, rasterChecks, hr]; exact h r hr

theorem reports_withSourceDest {k : Raster → Result} {f : Raster → List Check}
    (h : ∀ r, s.raster b = some r → Reports s (k r) (f r)) :
    Reports s (withSourceDest b d s k) (extractBankChecks s b d ++ rasterChecks s b f) := by
  simp only [extractBankChecks, List.cons_append, List.nil_append]
  refine ⟨fun hf => ?_, fun hf => ⟨fun hf2 => ?_, fun hf2 => ⟨fun hf3 => ?_, fun hf3 => ⟨fun hf4 => ?_, fun hf4 => ?_⟩⟩⟩⟩
  · simp only [bankExists] at hf ⊢; simp [withSourceDest, hf, fail, raiseError, saturate]
  · simp only [bankExists] at hf hf2 ⊢; simp [withSourceDest, hf, hf2, fail, raiseError, saturate]
  · simp only [bankExists] at hf; dsimp only at hf3; subst hf3; simp [withSourceDest, hf, fail, raiseError, saturate]
  · simp only [bankExists] at hf hf2; dsimp only at hf3
    simp only [bankValid] at hf4 ⊢; simp [withSourceDest, hf, hf2, hf3, hf4, fail, raiseError, saturate]
  · obtain ⟨r, hr⟩ := Option.ne_none_iff_exists'.mp hf4
    rw [withSourceDest_ok hr (by simpa [bankExists] using hf2) hf3, rasterChecks, hr]; exact h r hr

end Sys2Proof.Machine
end

