-- ==== Sys2Proof/Laws/Rasters.lean ====
section
/-! SUPPORT. Each raster a command builds or patches is a proper raster (`Raster.Ok`). -/

namespace Sys2Proof.Machine

/-- The palette operand is full size (40_tile_grid.md R108). -/
theorem loadedPalette_length {s : State} {v : Variant} (h : s.palInSize.toNat ≤ palMax v) :
    (s.loadedPalette v).length = palMax v := by
  have : palMax v ≤ 16 := by cases v <;> decide
  simp [State.loadedPalette]
  omega

/-- The loaded entries of the palette operand. -/
theorem loadedPalette_loaded {s : State} {v : Variant} {k : Nat} (hk : k < s.palInSize.toNat) (h16 : k < 16) :
    (s.loadedPalette v)[k]? = some s.palIn[k] := by
  rw [State.loadedPalette, List.getElem?_append_left (by simp; omega)]
  simp [hk, h16]

/-- The padding of the palette operand is PALPAD. -/
theorem loadedPalette_padding {s : State} {v : Variant} {k : Nat} (h : s.palInSize.toNat ≤ palMax v)
    (hs : s.palInSize.toNat ≤ k) (hk : k < palMax v) : (s.loadedPalette v)[k]? = some 0 := by
  have : palMax v ≤ 16 := by cases v <;> decide
  rw [State.loadedPalette, List.getElem?_append_right (by simp; omega)]
  simp [Config.palPad, List.getElem?_replicate]
  omega

/-- A sample of a proper raster is legal, wherever it is read. -/
theorem Raster.Ok.sample_lt {c : Config} {r : Raster} (h : r.Ok c) (x y : Nat) :
    (r.sample x y).toNat < sampleLimit r.variant := by
  rcases gridAt_mem (g := r.samples) (w := 8 * r.wt.toNat) (x := x) (y := y) (d := 0) with hm | hm
  · exact h.samples_lt _ hm
  · rw [Raster.sample, hm]; cases r.variant <;> decide

/-- What TDEC and TNEW build. -/
theorem built_ok {c : Config} {b : List Byte} {v : Variant} {o : Traversal} {pal : List Word} {wt ht : Word}
    (hw : 1 ≤ wt.toNat) (hh : 1 ≤ ht.toNat) (hc : wt.toNat * ht.toNat ≤ c.bankTiles) (hp : pal.length = palMax v) :
    Raster.Ok c { variant := v, order := o, wt := wt, ht := ht, pal := pal
                  samples := decodeGrid b wt.toNat ht.toNat v o, bp1 := none, bp2 := none } where
  wt_pos := hw
  ht_pos := hh
  tiles := hc
  pal_full := hp
  samples_len := decodeGrid_length b _ _ v o
  samples_lt := fun _ hx => decodeGrid_lt hx
  plane_one := nofun
  plane_two := nofun

/-- What the extractions build. -/
theorem derive_ok {c : Config} {r : Raster} {wt ht : Word} {f : Nat → Nat → Sample} (h : r.Ok c) (hw : 1 ≤ wt.toNat)
    (hh : 1 ≤ ht.toNat) (hc : wt.toNat * ht.toNat ≤ c.bankTiles)
    (hf : ∀ x y, (f x y).toNat < sampleLimit r.variant) :
    (r.derive wt ht (gridOf (8 * wt.toNat) (8 * ht.toNat) f)).Ok c where
  wt_pos := hw
  ht_pos := hh
  tiles := hc
  pal_full := h.pal_full
  samples_len := gridOf_length _ _ f
  samples_lt := fun v hv => by obtain ⟨x, y, -, -, rfl⟩ := mem_gridOf hv; exact hf x y
  plane_one := nofun
  plane_two := nofun

/-- What TPXS leaves. -/
theorem setSample_ok {c : Config} {r : Raster} {x y : Nat} {v : Sample} (h : r.Ok c)
    (hv : v.toNat < sampleLimit r.variant) : (r.setSample x y v).dropPlanes.Ok c where
  wt_pos := h.wt_pos
  ht_pos := h.ht_pos
  tiles := h.tiles
  pal_full := h.pal_full
  samples_len := by simpa using h.samples_len
  samples_lt := fun u hu => (List.mem_or_eq_of_mem_set hu).elim (h.samples_lt u) (· ▸ hv)
  plane_one := nofun
  plane_two := nofun

/-- What a plane fill leaves (42_planar2bpp.md R150). -/
theorem fillPlane_ok {c : Config} {r : Raster} (n : Plane) (h : r.Ok c) (hv : r.variant = .planar2bpp) :
    (r.fillPlane n).Ok c where
  wt_pos := by simpa using h.wt_pos
  ht_pos := by simpa using h.ht_pos
  tiles := by simpa using h.tiles
  pal_full := by simpa using h.pal_full
  samples_len := by simpa using h.samples_len
  samples_lt := by simpa using h.samples_lt
  plane_one := fun cells hc => by
    refine ⟨by simpa using hv, ?_⟩
    cases n
    · rw [fillPlane_one] at hc
      cases hp : r.bp1 with
      | none => simpa [hp, Raster.computePlane, Plane.bitIndex, eq_comm] using hc
      | some p =>
        have := (h.plane_one p hp).2
        simpa [hp, this, Raster.computePlane, eq_comm] using hc
    · rw [fillPlane_two] at hc
      simpa [Raster.computePlane] using (h.plane_one cells hc).2
  plane_two := fun cells hc => by
    refine ⟨by simpa using hv, ?_⟩
    cases n
    · rw [fillPlane_one] at hc
      simpa [Raster.computePlane] using (h.plane_two cells hc).2
    · rw [fillPlane_two] at hc
      cases hp : r.bp2 with
      | none => simpa [hp, Raster.computePlane, Plane.bitIndex, eq_comm] using hc
      | some p =>
        have := (h.plane_two p hp).2
        simpa [hp, this, Raster.computePlane, eq_comm] using hc

end Sys2Proof.Machine
end

