-- ==== Sys2Proof/Laws/Exec.lean ====
section
/-! SUPPORT. What a command can do, whichever it is: it never stops, and it ends in an error that changed nothing else or in
one of four effects. -/

namespace Sys2Proof.Machine

/-! ### A command always answers a next state -/

/-- The outcome is a next state. -/
def Ends (o : Result) : Prop := ∃ t, o = .next t

variable {s : State} {b sb db : Nat}

theorem ends_fail (e : ErrCode) (i0 i1 : Nat) : Ends (fail e i0 i1 s) := ⟨_, rfl⟩

theorem ends_finish : Ends (finish s) := ⟨_, rfl⟩

theorem ends_withDest {k : Result} (h : Ends k) : Ends (withDest db s k) := by
  unfold withDest; split
  exacts [ends_fail .., h]

theorem ends_withRaster {k : Raster → Result} (h : ∀ r, Ends (k r)) : Ends (withRaster b s k) := by
  unfold withRaster; split
  · exact ends_fail ..
  · split
    exacts [ends_fail .., h _]

theorem ends_withSourceDest {k : Raster → Result} (h : ∀ r, Ends (k r)) : Ends (withSourceDest sb db s k) := by
  unfold withSourceDest; split
  · exact ends_fail ..
  split
  · exact ends_fail ..
  split
  · exact ends_fail ..
  split
  exacts [ends_fail .., h _]

theorem ends_withPlanar {r : Raster} {k : Result} (h : Ends k) : Ends (withPlanar b r s k) := by
  unfold withPlanar; split
  exacts [ends_fail .., h]

theorem ends_withPixel {r : Raster} {k : Nat → Nat → Result} (h : ∀ x y, Ends (k x y)) : Ends (withPixel r s k) := by
  unfold withPixel; split
  · exact ends_fail ..
  split
  exacts [ends_fail .., h _ _]

theorem ends_withPalette {v : Variant} {k : List Word → Result} (h : ∀ p, Ends (k p)) : Ends (withPalette v s k) := by
  unfold withPalette; split
  exacts [ends_fail .., h _]

theorem ends_withGeometry {k : Word → Word → Result} (h : ∀ w t, Ends (k w t)) : Ends (withGeometry s k) := by
  unfold withGeometry; split
  · exact ends_fail ..
  split
  · exact ends_fail ..
  split
  exacts [ends_fail .., h _ _]

theorem ends_withBuffer {a n : Nat} {k : Result} (h : Ends k) : Ends (withBuffer a n s k) := by
  unfold withBuffer; split
  exacts [h, ends_fail ..]

theorem ends_emit (out : List Byte) : Ends (emit out s) := by
  unfold emit; split
  exacts [ends_fail .., ends_finish]

theorem ends_tdec (v : Variant) (c : Traversal) : Ends (tdec v db c s) :=
  ends_withDest <| ends_withPalette fun _ => ends_withGeometry fun _ _ => ends_withBuffer ends_finish

theorem ends_tnew (v : Variant) (c : Traversal) : Ends (tnew v db c s) :=
  ends_withDest <| ends_withPalette fun _ => ends_withGeometry fun _ _ => ends_finish

theorem ends_tbpl (n : Plane) : Ends (tbpl n sb s) :=
  ends_withRaster fun _ => ends_withPlanar ends_finish

theorem ends_tpxgPlane (n : Plane) : Ends (tpxgPlane n sb s) :=
  ends_withRaster fun _ => ends_withPlanar <| ends_withPixel fun _ _ => ends_finish

theorem ends_lzc (v : LzVariant) : Ends (lzc v s) := by
  refine ends_withBuffer <| ends_withBuffer ?_
  split
  exacts [ends_fail .., ends_emit _]

/-- A command never faults and is never refused (60_exceptions.md R230, R231). -/
theorem exec_ends (i : Instr) (s : State) : Ends (exec i s) := by
  cases i with
  | tdecP4 db c => exact ends_tdec _ _
  | tdecP2 db c => exact ends_tdec _ _
  | tenc sb => exact ends_withRaster fun _ => ends_withBuffer <| ends_emit _
  | tnewP4 db c => exact ends_tnew _ _
  | tnewP2 db c => exact ends_tnew _ _
  | txrng sb db =>
    refine ends_withSourceDest fun r => ?_
    dsimp only
    split
    · exact ends_fail ..
    split
    exacts [ends_fail .., ends_finish]
  | txrct sb db =>
    refine ends_withSourceDest fun r => ?_
    dsimp only
    split
    · exact ends_fail ..
    split
    · exact ends_fail ..
    split
    · exact ends_fail ..
    split
    exacts [ends_fail .., ends_finish]
  | txfrm sb db =>
    refine ends_withSourceDest fun r => ?_
    dsimp only
    split
    · exact ends_fail ..
    split
    · exact ends_fail ..
    split
    · exact ends_fail ..
    split
    exacts [ends_fail .., ends_finish]
  | tbpl1 sb => exact ends_tbpl _
  | tbpl2 sb => exact ends_tbpl _
  | tpxg sb => exact ends_withRaster fun _ => ends_withPixel fun _ _ => ends_finish
  | tpxgB1 sb => exact ends_tpxgPlane _
  | tpxgB2 sb => exact ends_tpxgPlane _
  | tpxs db =>
    refine ends_withRaster fun _ => ends_withPixel fun _ _ => ?_
    split
    exacts [ends_fail .., ends_finish]
  | lzcA => exact ends_lzc _
  | lzcB => exact ends_lzc _

/-! ### What it can do -/

/-- A raster that a command built whole: no plane is cached, and it is proper if the machine's rasters are. -/
def Built (s : State) (r : Raster) : Prop :=
  r.bp1 = none ∧ r.bp2 = none ∧ ((∀ q, some q ∈ s.banks → q.Ok s.cfg) → r.Ok s.cfg)

/-- The two commands that fill a plane of bank `n`. -/
def Fills (i : Instr) (n : Nat) : Plane → Prop
  | .one => i = .tbpl1 n ∨ i = .tpxgB1 n
  | .two => i = .tbpl2 n ∨ i = .tpxgB2 n

/-- What a command that patches a bank makes of its raster. -/
inductive Patched (i : Instr) (n : Nat) (s : State) (r : Raster) : Raster → Prop
  | sample (h : i = .tpxs n) (hv : s.arg2.toNat < sampleLimit r.variant) :
    Patched i n s r (r.setSample s.arg0.toNat s.arg1.toNat (s.arg2.setWidth 4)).dropPlanes
  | plane (p : Plane) (hv : r.variant = .planar2bpp) (h : Fills i n p) :
    Patched i n s r (r.fillPlane p)

/-- The effect of a command that completes, before its completion is recorded. -/
inductive Effect (i : Instr) (s : State) : State → Prop
  | build (db : Nat) (r : Raster) (hi : builtBank i = some db) (hd : db < s.nbanks) (hr : Built s r) :
    Effect i s (s.setRaster db r)
  | patch (n : Nat) (r q : Raster) (hi : patchedBank i = some n) (hr : s.raster n = some r) (hq : Patched i n s r q) (w : Word)
    (hw : w = s.result ∨ i = .tpxgB1 n ∨ i = .tpxgB2 n) : Effect i s { s.setRaster n q with result := w }
  | get (sb : Nat) (w : Word) (hi : i = .tpxg sb) : Effect i s { s with result := w }
  | emit (out : List Byte) (hi : (∃ sb, i = .tenc sb) ∨ i = .lzcA ∨ i = .lzcB)
    (hd : s.inMem s.dstAddr.toNat s.dstCap.toNat) (ho : out.length ≤ s.dstCap.toNat) : Effect i s (wroteOutput s out)

variable {t : State}

theorem tdec_effect {i : Instr} {v : Variant} {c : Traversal} (hi : builtBank i = some db)
    (h : tdec v db c s = .next t) : Raised s t ∨ ∃ u, Effect i s u ∧ t = complete u :=
  (tdec_cases h).imp_right fun ⟨hd, hp, hw, hh, hc, _, ht⟩ =>
    ⟨_, .build db _ hi hd ⟨rfl, rfl, fun _ => built_ok hw hh hc (loadedPalette_length hp)⟩, ht⟩

theorem tnew_effect {i : Instr} {v : Variant} {c : Traversal} (hi : builtBank i = some db)
    (h : tnew v db c s = .next t) : Raised s t ∨ ∃ u, Effect i s u ∧ t = complete u :=
  (tnew_cases h).imp_right fun ⟨hd, hp, hw, hh, hc, ht⟩ =>
    ⟨_, .build db _ hi hd ⟨rfl, rfl, fun _ => built_ok hw hh hc (loadedPalette_length hp)⟩, ht⟩

theorem derived_built {r : Raster} {wt ht : Word} {f : Nat → Nat → Sample} (hr : s.raster sb = some r)
    (hw : 1 ≤ wt.toNat) (hh : 1 ≤ ht.toNat) (hc : wt.toNat * ht.toNat ≤ r.wt.toNat * r.ht.toNat)
    (hf : r.Ok s.cfg → ∀ x y, (f x y).toNat < sampleLimit r.variant) :
    Built s (r.derive wt ht (gridOf (8 * wt.toNat) (8 * ht.toNat) f)) :=
  ⟨rfl, rfl, fun hall =>
    have hok := hall r (raster_mem hr)
    derive_ok hok hw hh (hc.trans hok.tiles) (hf hok)⟩

theorem tbpl_effect {i : Instr} {p : Plane} (hi : patchedBank i = some sb)
    (hp : Fills i sb p)
    (h : tbpl p sb s = .next t) : Raised s t ∨ ∃ u, Effect i s u ∧ t = complete u :=
  (tbpl_cases h).imp_right fun ⟨r, hr, hv, ht⟩ => ⟨_, .patch sb r _ hi hr (.plane p hv hp) s.result (.inl rfl), ht⟩

theorem tpxgPlane_effect {i : Instr} {p : Plane} (hi : patchedBank i = some sb)
    (hp : Fills i sb p)
    (hb : i = .tpxgB1 sb ∨ i = .tpxgB2 sb) (h : tpxgPlane p sb s = .next t) :
    Raised s t ∨ ∃ u, Effect i s u ∧ t = complete u :=
  (tpxgPlane_cases h).imp_right fun ⟨r, hr, hv, _, _, ht⟩ => ⟨_, .patch sb r _ hi hr (.plane p hv hp) _ (.inr hb), ht⟩

theorem lzc_effect {i : Instr} {v : LzVariant} (hi : i = .lzcA ∨ i = .lzcB) (h : lzc v s = .next t) :
    Raised s t ∨ ∃ u, Effect i s u ∧ t = complete u :=
  (lzc_cases h).imp_right fun ⟨_, hd, _, ho, ht⟩ => ⟨_, .emit _ (.inr hi) hd ho, ht⟩

/-- Everything a command can do. -/
theorem exec_effect {i : Instr} (h : exec i s = .next t) : Raised s t ∨ ∃ u, Effect i s u ∧ t = complete u := by
  cases i with
  | tdecP4 db c => exact tdec_effect rfl h
  | tdecP2 db c => exact tdec_effect rfl h
  | tnewP4 db c => exact tnew_effect rfl h
  | tnewP2 db c => exact tnew_effect rfl h
  | tenc sb => exact (execTenc_cases h).imp_right fun ⟨r, _, hd, ho, ht⟩ => ⟨_, .emit _ (.inl ⟨sb, rfl⟩) hd ho, ht⟩
  | txrng sb db =>
    refine (execTxrng_cases h).imp_right fun ⟨r, hr, hd, _, hlt, hle, ht⟩ => ⟨_, .build db _ rfl hd ?_, ht⟩
    have hn : (BitVec.ofNat 32 (s.arg1.toNat - s.arg0.toNat)).toNat = s.arg1.toNat - s.arg0.toNat := by
      rw [BitVec.toNat_ofNat, Nat.mod_eq_of_lt]; have := s.arg1.isLt; omega
    have := derived_built (wt := BitVec.ofNat 32 (s.arg1.toNat - s.arg0.toNat)) (ht := 1)
      (f := fun x y => r.sample (8 * (tilePos (s.arg0.toNat + x / 8) r.wt.toNat r.ht.toNat r.order).1 + x % 8)
        (8 * (tilePos (s.arg0.toNat + x / 8) r.wt.toNat r.ht.toNat r.order).2 + y)) hr (by rw [hn]; omega) (by decide)
      (by rw [hn]; simp; omega) (fun hok x y => hok.sample_lt _ _)
    rwa [hn] at this
  | txrct sb db =>
    refine (execTxrct_cases h).imp_right fun ⟨r, hr, hd, _, hw, hh, hx, hy, ht⟩ => ⟨_, .build db _ rfl hd ?_, ht⟩
    exact derived_built hr hw hh (Nat.mul_le_mul (by omega) (by omega)) (fun hok x y => hok.sample_lt _ _)
  | txfrm sb db =>
    refine (execTxfrm_cases h).imp_right fun ⟨r, hr, hd, _, hw, hh, hx, hy, hi, ht⟩ => ⟨_, .build db _ rfl hd ?_, ht⟩
    have pos : 0 < r.wt.toNat ∧ 0 < r.ht.toNat := by
      constructor <;> refine Nat.pos_of_ne_zero fun h0 => ?_ <;> simp [h0] at hi
    exact derived_built hr hw hh (Nat.mul_le_mul (Nat.le_of_dvd pos.1 (Nat.dvd_of_mod_eq_zero hx))
      (Nat.le_of_dvd pos.2 (Nat.dvd_of_mod_eq_zero hy))) (fun hok x y => hok.sample_lt _ _)
  | tbpl1 sb => exact tbpl_effect (p := .one) rfl (Or.inl rfl) h
  | tbpl2 sb => exact tbpl_effect (p := .two) rfl (Or.inl rfl) h
  | tpxg sb => exact (execTpxg_cases h).imp_right fun ⟨r, _, _, _, ht⟩ => ⟨_, .get sb _ rfl, ht⟩
  | tpxgB1 sb => exact tpxgPlane_effect (p := .one) rfl (Or.inr rfl) (.inl rfl) h
  | tpxgB2 sb => exact tpxgPlane_effect (p := .two) rfl (Or.inr rfl) (.inr rfl) h
  | tpxs db =>
    exact (execTpxs_cases h).imp_right fun ⟨r, hr, _, _, hv, ht⟩ =>
      ⟨_, .patch db r _ rfl hr (.sample rfl hv) s.result (.inl rfl), ht⟩
  | lzcA => exact lzc_effect (.inl rfl) h
  | lzcB => exact lzc_effect (.inr rfl) h

/-- Taking an error changes the status and the information words only (60_exceptions.md R230). -/
theorem Raised.same (h : Raised s t) :
    t = { s with errCode := t.errCode, errInfo0 := t.errInfo0, errInfo1 := t.errInfo1, err := true, done := false,
                 busy := false } := by
  obtain ⟨e, i0, i1, he, rfl⟩ := h; rfl

theorem Raised.errCode_ne (h : Raised s t) : t.errCode ≠ .none := by
  obtain ⟨e, i0, i1, he, rfl⟩ := h; exact he

/-- No effect writes a register other than RESULT and DST_LEN. -/
theorem Effect.same {i : Instr} {u : State} (h : Effect i s u) :
    u = { s with banks := u.banks, mem := u.mem, dstLen := u.dstLen, result := u.result } := by
  cases h <;> rfl

/-- No effect changes the number of banks. -/
theorem Effect.nbanks {i : Instr} {u : State} (h : Effect i s u) : u.nbanks = s.nbanks := by
  cases h <;> simp [State.nbanks, wroteOutput, State.memWrite, State.setRaster]

/-- A patched raster is proper if it was. -/
theorem Patched.ok {i : Instr} {n : Nat} {r q : Raster} {c : Config} (h : Patched i n s r q) (hr : r.Ok c) : q.Ok c := by
  cases h with
  | sample _ hv => exact setSample_ok hr (by rw [BitVec.toNat_setWidth]; exact lt_of_le_of_lt (Nat.mod_le _ _) hv)
  | plane p hv _ => exact fillPlane_ok p hr hv

end Sys2Proof.Machine
end

