-- ==== Sys2Proof/Laws/HostPort.lean ====
section
/-! SUPPORT. The host's side: what a step does for each kind of pending action, and what a command written to CMD can do. -/

namespace Sys2Proof.Machine

variable {s t : State} {rest : List HostAction} {w v : Word} {off : Nat}

/-- With nothing pending the machine waits. -/
theorem step_idle (h : s.host = []) : step s = .next s := by simp [step, h]

/-- One step performs the oldest pending action. -/
theorem step_act {act : HostAction} (h : s.host = act :: rest) : step s = hostAct act { s with host := rest } := by
  simp [step, h]

/-- A write to the register at an offset while BUSY = 0. -/
theorem step_writeReg {r : Reg} (hb : s.busy = false) (h : s.host = .writeReg off v :: rest) (hr : regAt off = some r) :
    step s = writeReg r v { s with host := rest } := by
  simp [step, h, hostAct, atRegister, hr, hb]

/-- A read of the register at an offset while BUSY = 0 has no side effect (20_memory.md R65). -/
theorem step_readReg {r : Reg} (hb : s.busy = false) (h : s.host = .readReg off :: rest) (hr : regAt off = some r) :
    step s = .next { s with host := rest, regData := s.readReg r } := by
  rw [step_act h]
  have hs : ({ s with host := rest } : State).readReg r = s.readReg r := by cases r <;> rfl
  simp only [hostAct, atRegister, hr]
  rw [if_neg (by simp [hb]), hs]

/-- A host access to MEM while BUSY = 0 that reaches past its end faults (log 10). -/
theorem atMem_fault {a n : Nat} {k : Result} (hb : s.busy = false) (hn : 0 < n) (hm : s.cfg.memSize < a + n) :
    atMem a n s k = .fault .hostMemOutOfRange := by
  rw [atMem, hb, if_neg (by simp), if_neg (by rw [State.inMem]; omega)]

/-- A write to CMD while BUSY = 0 (10_state.md R28). -/
theorem step_cmd (hb : s.busy = false) (h : s.host = .writeReg 0x08 w :: rest) :
    step s = runCommand w { s with host := rest } := step_writeReg hb h rfl

/-- A write to CMD while BUSY = 1 is ignored (10_state.md R28). -/
theorem step_cmd_busy (hb : s.busy = true) (h : s.host = .writeReg 0x08 w :: rest) :
    step s = .next { s with host := rest } := by
  rw [step_act h]
  show (if s.busy then _ else _) = _
  rw [hb]; rfl

/-- A command written to CMD ends. -/
theorem runCommand_ends (w : Word) (s : State) : Ends (runCommand w s) := by
  unfold runCommand; split
  exacts [exec_ends .., ends_fail ..]

/-- Everything a word written to CMD can do. -/
theorem runCommand_cases (h : runCommand w s = .next t) :
    Raised (accept w s) t ∨ ∃ i u, decode w = .ok i ∧ Effect i (accept w s) u ∧ t = complete u := by
  unfold runCommand at h
  split at h
  · next i hi => exact (exec_effect h).imp_right fun ⟨u, hu, ht⟩ => ⟨i, u, hi, hu, ht⟩
  · exact .inl (fail_eq (by simp) h)

/-- After a soft reset no bank is valid. -/
@[simp] theorem softReset_raster (s : State) (b : Nat) : (softReset s).raster b = none := by
  simp [State.raster, List.getD_eq_getElem?_getD]

/-- A register access has a register exactly at the word offsets (20_memory.md R63). -/
theorem regAt_eq_none {off : Nat} : regAt off = none ↔ off % 4 ≠ 0 ∨ 0xFC < off := by
  unfold regAt
  split
  · simpa
  · next h =>
    split
    · simpa using h
    · split <;> simpa using h

end Sys2Proof.Machine
end

