-- ==== Sys2Proof/Laws/Lzss.lean ====
section
/-! SUPPORT. The compressor: what the match search finds, what a token list spells, how long its bytes are. -/

namespace Sys2Proof.Machine

/-! ### The match search -/

theorem commonPrefix_le (cap : Nat) (xs ys : List Byte) : commonPrefix cap xs ys ≤ cap := by
  induction cap generalizing xs ys with
  | zero => simp [commonPrefix]
  | succ cap ih =>
    cases xs <;> cases ys <;> simp only [commonPrefix, Nat.zero_le]
    split
    · exact Nat.succ_le_succ (ih _ _)
    · exact Nat.zero_le _

/-- How far two lists agree: `l` leading bytes agree exactly when `l` is at most the common prefix. -/
theorem le_commonPrefix {cap l : Nat} {xs ys : List Byte} (hl : l ≤ cap) :
    l ≤ commonPrefix cap xs ys ↔ l ≤ ys.length ∧ l ≤ xs.length ∧ ∀ i < l, xs[i]? = ys[i]? := by
  induction cap generalizing l xs ys with
  | zero => simp [Nat.le_zero.mp hl]
  | succ cap ih =>
    cases l with
    | zero => simp
    | succ l =>
      cases xs with
      | nil => simp [commonPrefix]
      | cons x xs =>
        cases ys with
        | nil => simp [commonPrefix]
        | cons y ys =>
          rw [commonPrefix]
          split
          · next h =>
            rw [Nat.succ_le_succ_iff, ih (Nat.le_of_succ_le_succ hl)]
            constructor
            · rintro ⟨h1, h2, h3⟩
              refine ⟨by simpa using h1, by simpa using h2, fun i hi => ?_⟩
              cases i with
              | zero => simp [h]
              | succ i => simpa using h3 i (by omega)
            · rintro ⟨h1, h2, h3⟩
              exact ⟨by simpa using h1, by simpa using h2, fun i hi => by simpa using h3 (i + 1) (by omega)⟩
          · next h =>
            simp only [Nat.le_zero, Nat.succ_ne_zero, false_iff]
            rintro ⟨-, -, h3⟩
            exact h (by simpa using h3 0 (by omega))

theorem matchLen_le (b : List Byte) (p cap d : Nat) : matchLen b p cap d ≤ cap := commonPrefix_le _ _ _

/-- `mlen(d)` (44_lzss.md R187) in terms of the bytes of the input. -/
theorem le_matchLen {b : List Byte} {p cap d l : Nat} (hl : l ≤ cap) (hp : p ≤ b.length) :
    l ≤ matchLen b p cap d ↔ bytesAgree b (p - d) p l := by
  rw [matchLen, le_commonPrefix hl, bytesAgree]
  simp only [List.length_drop, List.getElem?_drop]
  constructor
  · rintro ⟨h1, h2, h3⟩; exact ⟨by omega, h3⟩
  · rintro ⟨h1, h3⟩; exact ⟨by omega, by omega, h3⟩

/-- The scan keeps the best it was given or ends at a displacement it looked at. -/
theorem scan_mem (tie : LzTie) (b : List Byte) (p cap d : Nat) (best : Nat × Nat) :
    scan tie b p cap d best = best ∨
      ∃ e, 1 ≤ e ∧ e ≤ d ∧ replaces tie (matchLen b p cap e) best.1 = true ∧
        scan tie b p cap d best = (matchLen b p cap e, e) := by
  induction d generalizing best with
  | zero => exact .inl rfl
  | succ d ih =>
    rw [scan]
    split
    · next hr =>
      rcases ih (matchLen b p cap (d + 1), d + 1) with h | ⟨e, h1, h2, h3, h4⟩
      · exact .inr ⟨d + 1, by omega, by omega, hr, h⟩
      · refine .inr ⟨e, h1, by omega, ?_, h4⟩
        cases tie <;> simp [replaces] at hr h3 ⊢ <;> omega
    · rcases ih best with h | ⟨e, h1, h2, h3, h4⟩
      · exact .inl h
      · exact .inr ⟨e, h1, by omega, h3, h4⟩

/-- The best length never falls. -/
theorem scan_mono (tie : LzTie) (b : List Byte) (p cap d : Nat) (best : Nat × Nat) :
    best.1 ≤ (scan tie b p cap d best).1 := by
  rcases scan_mem tie b p cap d best with h | ⟨e, -, -, h, h'⟩
  · rw [h]
  · rw [h']; cases tie <;> simp [replaces] at h <;> dsimp only <;> omega

/-- No displacement the scan looks at beats its result. -/
theorem scan_max (tie : LzTie) (b : List Byte) (p cap : Nat) {d e : Nat} (best : Nat × Nat) (h1 : 1 ≤ e) (h2 : e ≤ d) :
    matchLen b p cap e ≤ (scan tie b p cap d best).1 := by
  induction d generalizing best with
  | zero => omega
  | succ d ih =>
    rw [scan]
    rcases Nat.lt_or_ge d e with h | h
    · have : e = d + 1 := by omega
      subst this
      refine Nat.le_trans ?_ (scan_mono tie b p cap d _)
      split
      · exact Nat.le_refl _
      · next hr => cases tie <;> simp [replaces] at hr <;> omega
    · exact ih _ h

/-- FARTHEST (44_lzss.md R196): among equals the largest displacement. -/
theorem scan_farthest (b : List Byte) (p cap : Nat) {d e : Nat} (best : Nat × Nat) (h1 : 1 ≤ e) (h2 : e ≤ d)
    (he : matchLen b p cap e = (scan .farthest b p cap d best).1) (hb : best.1 < matchLen b p cap e) :
    e ≤ (scan .farthest b p cap d best).2 := by
  induction d generalizing best with
  | zero => omega
  | succ d ih =>
    rw [scan] at he ⊢
    rcases Nat.lt_or_ge d e with h | h
    · have : e = d + 1 := by omega
      subst this
      have hr : replaces .farthest (matchLen b p cap (d + 1)) best.1 = true := by simp [replaces, hb]
      rw [if_pos hr] at he ⊢
      rcases scan_mem .farthest b p cap d (matchLen b p cap (d + 1), d + 1) with h' | ⟨e', -, -, h', h''⟩
      · rw [h']
      · rw [h''] at he; simp [replaces] at h'; dsimp only at he; omega
    · split at he
      · next hr =>
        rw [if_pos hr]
        rcases Nat.lt_or_ge (matchLen b p cap (d + 1)) (matchLen b p cap e) with hlt | hge
        · exact ih _ h he hlt
        · rcases scan_mem .farthest b p cap d (matchLen b p cap (d + 1), d + 1) with h' | ⟨e', -, -, h', h''⟩
          · rw [h']; dsimp only; omega
          · rw [h''] at he; simp [replaces] at h'; dsimp only at he; omega
      · next hr => rw [if_neg hr]; exact ih _ h he hb

/-- NEAREST (R196): among equals the smallest displacement. -/
theorem scan_nearest (b : List Byte) (p cap : Nat) {d e : Nat} (best : Nat × Nat) (h1 : 1 ≤ e) (h2 : e ≤ d)
    (he : matchLen b p cap e = (scan .nearest b p cap d best).1) (hb : 0 < matchLen b p cap e) :
    (scan .nearest b p cap d best).2 ≤ e := by
  induction d generalizing best with
  | zero => omega
  | succ d ih =>
    rw [scan] at he ⊢
    rcases Nat.lt_or_ge d e with h | h
    · have : e = d + 1 := by omega
      subst this
      rcases scan_mem .nearest b p cap d
        (if replaces .nearest (matchLen b p cap (d + 1)) best.1 = true then (matchLen b p cap (d + 1), d + 1) else best)
        with h' | ⟨e', -, h3, -, h''⟩
      · rw [h'] at he ⊢
        split at he
        · next hr => rw [if_pos hr]
        · next hr => simp [replaces] at hr; omega
      · rw [h'']; dsimp only; omega
    · exact ih _ h he

/-! ### What a token list spells -/

/-- `Spells v b p ts`: from position `p`, the tokens `ts` produce the rest of `b`, each of them one the variant can
spell (44_lzss.md R191 to R195). -/
inductive Spells (v : LzVariant) (b : List Byte) : Nat → List Token → Prop
  | done : Spells v b b.length []
  | literal {p : Nat} {x : Byte} {ts : List Token} (hx : b[p]? = some x) (h : Spells v b (p + 1) ts) :
    Spells v b p (.literal x :: ts)
  | copy {p len disp : Nat} {ts : List Token} (h3 : 3 ≤ len) (hm : len ≤ v.maxLen) (h1 : 1 ≤ disp)
    (hw : disp ≤ min p 4096) (ha : bytesAgree b (p - disp) p len) (h : Spells v b (p + len) ts) :
    Spells v b p (.copy len disp :: ts)

theorem Spells.le {v : LzVariant} {b : List Byte} {p : Nat} {ts : List Token} (h : Spells v b p ts) :
    p ≤ b.length := by
  induction h with
  | done => exact Nat.le_refl _
  | literal _ _ ih => omega
  | copy _ _ _ _ _ _ ih => omega

/-- The greedy loop spells the rest of its input. -/
theorem tokensFrom_spells (tie : LzTie) (v : LzVariant) (b : List Byte) {fuel p : Nat} (hp : p ≤ b.length)
    (hf : b.length ≤ p + fuel) : Spells v b p (tokensFrom tie b v.maxLen fuel p) := by
  induction fuel generalizing p with
  | zero => rw [show p = b.length by omega]; exact .done
  | succ fuel ih =>
    rw [tokensFrom]
    split
    · next hlt =>
      have hmem := scan_mem tie b p (min v.maxLen (b.length - p)) (min p Config.lzWindow) (0, 0)
      dsimp only
      split
      · next h3 =>
        have h3 : 3 ≤ (findMatch tie b p v.maxLen).1 := h3
        rw [findMatch] at h3 ⊢
        rcases hmem with h | ⟨e, h1, h2, -, h⟩
        · rw [h] at h3; simp at h3
        · rw [h] at h3 ⊢
          have hle := matchLen_le b p (min v.maxLen (b.length - p)) e
          have hle' : matchLen b p (min v.maxLen (b.length - p)) e ≤ v.maxLen ∧
            matchLen b p (min v.maxLen (b.length - p)) e ≤ b.length - p := by omega
          dsimp only at h3 ⊢
          exact .copy h3 hle'.1 h1 h2 ((le_matchLen hle hp).mp (Nat.le_refl _)) (ih (by omega) (by omega))
      · refine .literal ?_ (ih hlt (by omega))
        simp [hlt]
    · rw [show p = b.length by omega]; exact .done

@[simp] theorem consumed_nil : consumed [] = 0 := rfl

@[simp] theorem consumed_cons (t : Token) (ts : List Token) : consumed (t :: ts) = t.span + consumed ts := by
  simp [consumed]

/-- The greedy loop (44_lzss.md R186): from position `p` it consumes the rest of the input, and each token is the one the
match search chooses at its position. -/
theorem tokensFrom_greedy (tie : LzTie) (b : List Byte) (maxLen : Nat) {fuel p : Nat} (hp : p ≤ b.length)
    (hf : b.length ≤ p + fuel) :
    p + consumed (tokensFrom tie b maxLen fuel p) = b.length ∧
      ∀ k t, (tokensFrom tie b maxLen fuel p)[k]? = some t →
        let q := p + consumed ((tokensFrom tie b maxLen fuel p).take k)
        let m := findMatch tie b q maxLen
        3 ≤ m.1 ∧ t = .copy m.1 m.2 ∨ m.1 < 3 ∧ ∃ x, b[q]? = some x ∧ t = .literal x := by
  induction fuel generalizing p with
  | zero => simp [tokensFrom]; omega
  | succ fuel ih =>
    rw [tokensFrom]
    split
    · next hlt =>
      have hm : (findMatch tie b p maxLen).1 ≤ b.length - p := by
        rw [findMatch]
        rcases scan_mem tie b p (min maxLen (b.length - p)) (min p Config.lzWindow) (0, 0) with h | ⟨e, -, -, -, h⟩
        · simp [h]
        · rw [h]; exact (matchLen_le ..).trans (Nat.min_le_right ..)
      dsimp only
      split
      · next h3 =>
        have h3 : 3 ≤ (findMatch tie b p maxLen).1 := h3
        obtain ⟨hs, hk⟩ := @ih (p + (findMatch tie b p maxLen).1) (by omega) (by omega)
        refine ⟨by simpa [Token.span, Nat.add_assoc] using hs, fun k t ht => ?_⟩
        cases k with
        | zero => exact .inl ⟨by simpa using h3, by simpa using ht.symm⟩
        | succ k => simpa [Token.span, Nat.add_assoc] using hk k t (by simpa using ht)
      · next h3 =>
        have h3 : ¬ 3 ≤ (findMatch tie b p maxLen).1 := h3
        obtain ⟨hs, hk⟩ := @ih (p + 1) hlt (by omega)
        refine ⟨by simpa [Token.span, Nat.add_assoc] using hs, fun k t ht => ?_⟩
        cases k with
        | zero => exact .inr ⟨by simpa using h3, b[p], by simp, by simpa [hlt] using ht.symm⟩
        | succ k => simpa [Token.span, Nat.add_assoc] using hk k t (by simpa using ht)
    · refine ⟨by simp; omega, by simp⟩

/-- The tokens of an input spell it. -/
theorem tokens_spells (tie : LzTie) (v : LzVariant) (b : List Byte) : Spells v b 0 (tokens tie b v.maxLen) :=
  tokensFrom_spells tie v b (Nat.zero_le _) (by omega)

/-- A match token is no longer than the bytes it stands for (R191, R198 to R201). -/
theorem copyBytes_length {v : LzVariant} {len disp : Nat} (h3 : 3 ≤ len) : (copyBytes v len disp).length ≤ len := by
  cases v
  · simp [copyBytes, tokenA]; omega
  · simp only [copyBytes, tokenB]
    split
    · simp [tokenB1]; omega
    · split <;> simp [tokenB2, tokenB3] <;> omega

/-- The tokens, and their bytes, are no more than the bytes they stand for. -/
theorem Spells.lengths {v : LzVariant} {b : List Byte} {p : Nat} {ts : List Token} (h : Spells v b p ts) :
    ts.length + p ≤ b.length ∧ (ts.flatMap (tokenBytes v)).length + p ≤ b.length := by
  induction h with
  | done => simp
  | literal _ _ ih => simp [List.flatMap_cons, tokenBytes] at ih ⊢; omega
  | @copy p len disp ts h3 _ _ _ _ _ ih =>
    have := copyBytes_length (v := v) (disp := disp) h3
    simp only [List.flatMap_cons, tokenBytes, List.length_append, List.length_cons] at ih ⊢
    omega

/-- The body has the bytes of the tokens and one control byte for every eight (44_lzss.md R182). -/
theorem bodyGroups_length (v : LzVariant) {fuel : Nat} {ts : List Token} (h : ts.length ≤ fuel) :
    (bodyGroups v fuel ts).length = (ts.flatMap (tokenBytes v)).length + (ts.length + 7) / 8 := by
  induction fuel generalizing ts with
  | zero => rw [List.length_eq_zero_iff.mp (Nat.le_zero.mp h)]; rfl
  | succ fuel ih =>
    cases ts with
    | nil => rfl
    | cons t ts =>
      rw [bodyGroups, List.length_append, ih (by simp at h ⊢; omega), groupBytes, List.length_cons]
      have : ((t :: ts).flatMap (tokenBytes v)).length =
          (((t :: ts).take 8).flatMap (tokenBytes v)).length + (((t :: ts).drop 8).flatMap (tokenBytes v)).length := by
        rw [← List.length_append, ← List.flatMap_append, List.take_append_drop]
      rw [this, List.length_drop]
      simp only [List.length_cons] at h ⊢
      omega

/-! ### Reading a stream back -/

/-- The reference decompressor's copy loop gives the bytes a match stands for (44_lzss.md R192, R212). -/
theorem copyBack_agree {b : List Byte} {p l d : Nat} (h1 : 1 ≤ d) (hd : d ≤ p) (ha : bytesAgree b (p - d) p l) :
    copyBack l d (b.take p) = some (b.take (p + l)) := by
  induction l generalizing p with
  | zero => rfl
  | succ l ih =>
    have hl := ha.1
    have hlen : (b.take p).length = p := by rw [List.length_take]; omega
    rw [copyBack, hlen, if_pos hd]
    have hb : (b.take p).getD (p - d) 0 = b[p] := by
      have := ha.2 0 (by omega)
      rw [List.getD_eq_getElem?_getD, List.getElem?_take, if_pos (by omega)]
      simp only [Nat.add_zero] at this
      rw [this]; simp [show p < b.length by omega]
    rw [hb, List.take_append_getElem (by omega), show p + (l + 1) = (p + 1) + l by omega]
    refine ih (by omega) ⟨by omega, fun i hi => ?_⟩
    have := ha.2 (i + 1) (by omega)
    rw [show p + 1 - d + i = p - d + (i + 1) by omega, this]; congr 1; omega

end Sys2Proof.Machine
end

