-- ==== Sys2Proof/Laws/PerInstr.lean ====
section
/-! SUPPORT. Statements made per instruction. OwnRow: the command word of a well-formed command has the fixed bits of the
command's own row of the opcode map (30_encoding.md R86). -/

namespace Sys2Proof.Laws.OwnRow

/-- `match` and `mask` of a command's row of R86. -/
def row : Instr → Word × Word
  | .tdecP4 _ _ => (0x00000001, 0xFFFD0FFF)
  | .tdecP2 _ _ => (0x00010001, 0xFFFD0FFF)
  | .tenc _ => (0x00000002, 0xFFFFF0FF)
  | .tnewP4 _ _ => (0x00000003, 0xFFFD0FFF)
  | .tnewP2 _ _ => (0x00010003, 0xFFFD0FFF)
  | .txrng _ _ => (0x00000004, 0xFFFF00FF)
  | .txrct _ _ => (0x00000005, 0xFFFF00FF)
  | .txfrm _ _ => (0x00000006, 0xFFFF00FF)
  | .tbpl1 _ => (0x00040007, 0xFFFFF0FF)
  | .tbpl2 _ => (0x00080007, 0xFFFFF0FF)
  | .tpxg _ => (0x00000008, 0xFFFFF0FF)
  | .tpxgB1 _ => (0x00040008, 0xFFFFF0FF)
  | .tpxgB2 _ => (0x00080008, 0xFFFFF0FF)
  | .tpxs _ => (0x00000009, 0xFFFF0FFF)
  | .lzcA => (0x00100010, 0xFFFFFFFF)
  | .lzcB => (0x00110010, 0xFFFFFFFF)

/-- The word of `i` under its row's mask. -/
def fixedBits (i : Instr) : Word := encode i &&& (row i).2

/-- The command word of a well-formed `i` agrees with its row where the row is fixed. -/
def Statement (i : Instr) : Prop := i.wf = true → fixedBits i = (row i).1

/-- A statement about one bank field holds when it holds of the sixteen values. -/
theorem of_bank (f : Nat → Instr) (hw : ∀ b, (f b).wf = decide (b < 16))
    (h : ∀ b : Fin 16, fixedBits (f b) = (row (f b)).1) (b : Nat) : Statement (f b) :=
  fun hwf => h ⟨b, by simpa [hw] using hwf⟩

/-- The same for two bank fields. -/
theorem of_banks (f : Nat → Nat → Instr) (hw : ∀ a b, (f a b).wf = decide (a < 16 ∧ b < 16))
    (h : ∀ a b : Fin 16, fixedBits (f a b) = (row (f a b)).1) (a b : Nat) : Statement (f a b) := fun hwf => by
  have hab : a < 16 ∧ b < 16 := by simpa [hw] using hwf
  exact h ⟨a, hab.1⟩ ⟨b, hab.2⟩

theorem tdecP4 (db : Nat) (c : Traversal) : Statement (.tdecP4 db c) := by
  cases c
  · exact of_bank (fun b => .tdecP4 b .rowMajor) (fun _ => rfl) (by decide) db
  · exact of_bank (fun b => .tdecP4 b .colMajor) (fun _ => rfl) (by decide) db

theorem tdecP2 (db : Nat) (c : Traversal) : Statement (.tdecP2 db c) := by
  cases c
  · exact of_bank (fun b => .tdecP2 b .rowMajor) (fun _ => rfl) (by decide) db
  · exact of_bank (fun b => .tdecP2 b .colMajor) (fun _ => rfl) (by decide) db

theorem tenc (sb : Nat) : Statement (.tenc sb) := of_bank .tenc (fun _ => rfl) (by decide) sb

theorem tnewP4 (db : Nat) (c : Traversal) : Statement (.tnewP4 db c) := by
  cases c
  · exact of_bank (fun b => .tnewP4 b .rowMajor) (fun _ => rfl) (by decide) db
  · exact of_bank (fun b => .tnewP4 b .colMajor) (fun _ => rfl) (by decide) db

theorem tnewP2 (db : Nat) (c : Traversal) : Statement (.tnewP2 db c) := by
  cases c
  · exact of_bank (fun b => .tnewP2 b .rowMajor) (fun _ => rfl) (by decide) db
  · exact of_bank (fun b => .tnewP2 b .colMajor) (fun _ => rfl) (by decide) db

theorem txrng (sb db : Nat) : Statement (.txrng sb db) :=
  of_banks .txrng (fun _ _ => rfl) (by decide +kernel) sb db

theorem txrct (sb db : Nat) : Statement (.txrct sb db) :=
  of_banks .txrct (fun _ _ => rfl) (by decide +kernel) sb db

theorem txfrm (sb db : Nat) : Statement (.txfrm sb db) :=
  of_banks .txfrm (fun _ _ => rfl) (by decide +kernel) sb db

theorem tbpl1 (sb : Nat) : Statement (.tbpl1 sb) := of_bank .tbpl1 (fun _ => rfl) (by decide) sb

theorem tbpl2 (sb : Nat) : Statement (.tbpl2 sb) := of_bank .tbpl2 (fun _ => rfl) (by decide) sb

theorem tpxg (sb : Nat) : Statement (.tpxg sb) := of_bank .tpxg (fun _ => rfl) (by decide) sb

theorem tpxgB1 (sb : Nat) : Statement (.tpxgB1 sb) := of_bank .tpxgB1 (fun _ => rfl) (by decide) sb

theorem tpxgB2 (sb : Nat) : Statement (.tpxgB2 sb) := of_bank .tpxgB2 (fun _ => rfl) (by decide) sb

theorem tpxs (db : Nat) : Statement (.tpxs db) := of_bank .tpxs (fun _ => rfl) (by decide) db

theorem lzcA : Statement .lzcA := fun _ => by decide

theorem lzcB : Statement .lzcB := fun _ => by decide

end Sys2Proof.Laws.OwnRow
end

