-- ==== Sys2Proof/Tests/Slice0.lean ====
section
/-! SUPPORT. Tests, each on one fixed case, and for every statement with hypotheses a concrete case that meets all of them. Expected
results are those of 95_test_vectors.md and of the examples in the rules, named at each test. -/

namespace Sys2Proof.Tests

-- One theorem after another: `decide +kernel` waits for what stands before it, and forty waiting threads take memory.
set_option Elab.async false

open Sys2Proof Sys2Proof.Machine

/-! ### Decoding: words written out from 30_encoding.md R81, R82, R86 -/

-- Format T: Z (12) PL (2) C V DB (4) SB (4) OP (8); Format L: Z1 (8) TAG (8) Z0 (8) OP (8)
theorem test_decode_tdecP4 : decode 0b00000000000000100011000000000001 = .ok (.tdecP4 3 .colMajor) := by decide
theorem test_decode_tdecP2 : decode 0b00000000000000010001000000000001 = .ok (.tdecP2 1 .rowMajor) := by decide
theorem test_decode_tenc : decode 0b00000000000000000000111100000010 = .ok (.tenc 15) := by decide
theorem test_decode_tnewP4 : decode 0b00000000000000000001000000000011 = .ok (.tnewP4 1 .rowMajor) := by decide
theorem test_decode_tnewP2 : decode 0b00000000000000111000000000000011 = .ok (.tnewP2 8 .colMajor) := by decide
theorem test_decode_txrng : decode 0b00000000000000000010000100000100 = .ok (.txrng 1 2) := by decide
theorem test_decode_txrct : decode 0b00000000000000000010000000000101 = .ok (.txrct 0 2) := by decide
theorem test_decode_txfrm : decode 0b00000000000000001111000000000110 = .ok (.txfrm 0 15) := by decide
theorem test_decode_tbpl1 : decode 0b00000000000001000000001000000111 = .ok (.tbpl1 2) := by decide
theorem test_decode_tbpl2 : decode 0b00000000000010000000001000000111 = .ok (.tbpl2 2) := by decide
theorem test_decode_tpxg : decode 0b00000000000000000000001100001000 = .ok (.tpxg 3) := by decide
theorem test_decode_tpxgB1 : decode 0b00000000000001000000001100001000 = .ok (.tpxgB1 3) := by decide
theorem test_decode_tpxgB2 : decode 0b00000000000010000000001100001000 = .ok (.tpxgB2 3) := by decide
theorem test_decode_tpxs : decode 0b00000000000000000100000000001001 = .ok (.tpxs 4) := by decide
theorem test_decode_lzcA : decode 0b00000000000100000000000000010000 = .ok .lzcA := by decide
theorem test_decode_lzcB : decode 0b00000000000100010000000000010000 = .ok .lzcB := by decide

-- R87: what is rejected, and why
theorem test_decode_unassigned : decode 0x0000000A = .error .unassignedOpcode := by decide
theorem test_decode_mustBeZero : decode 0x00100002 = .error .fixedField := by decide
theorem test_decode_unusedField : decode 0x00000101 = .error .fixedField := by decide
theorem test_decode_plane3 : decode 0x000C0007 = .error .fixedField := by decide
theorem test_decode_badTag : decode 0x00120010 = .error .fixedField := by decide

/-! ### WellFormed: an ill-formed term for each check -/

theorem test_wf_tdecP4 : (Instr.tdecP4 16 .rowMajor).wf = false := by decide
theorem test_wf_tdecP2 : (Instr.tdecP2 16 .rowMajor).wf = false := by decide
theorem test_wf_tenc : (Instr.tenc 16).wf = false := by decide
theorem test_wf_tnewP4 : (Instr.tnewP4 16 .colMajor).wf = false := by decide
theorem test_wf_tnewP2 : (Instr.tnewP2 16 .colMajor).wf = false := by decide
theorem test_wf_txrng : (Instr.txrng 16 0).wf = false ∧ (Instr.txrng 0 16).wf = false := by decide
theorem test_wf_txrct : (Instr.txrct 16 0).wf = false ∧ (Instr.txrct 0 16).wf = false := by decide
theorem test_wf_txfrm : (Instr.txfrm 16 0).wf = false ∧ (Instr.txfrm 0 16).wf = false := by decide
theorem test_wf_tbpl1 : (Instr.tbpl1 16).wf = false := by decide
theorem test_wf_tbpl2 : (Instr.tbpl2 16).wf = false := by decide
theorem test_wf_tpxg : (Instr.tpxg 16).wf = false := by decide
theorem test_wf_tpxgB1 : (Instr.tpxgB1 16).wf = false := by decide
theorem test_wf_tpxgB2 : (Instr.tpxgB2 16).wf = false := by decide
theorem test_wf_tpxs : (Instr.tpxs 16).wf = false := by decide

/-! ### Small states -/

/-- The state after an outcome, for reading fields off it. -/
def after (o : Result) : State :=
  match o with
  | .next t => t
  | _ => State.reset

/-- A raster whose tile at (x, y) holds the sample `f x y` everywhere. -/
def tiles (v : Variant) (c : Traversal) (w h : Nat) (f : Nat → Nat → Sample) : Raster :=
  { variant := v, order := c, wt := BitVec.ofNat 32 w, ht := BitVec.ofNat 32 h, pal := List.replicate (palMax v) 0
    samples := gridOf (8 * w) (8 * h) fun x y => f (x / 8) (y / 8), bp1 := none, bp2 := none }

/-- One tile whose row 0 is given and whose other rows are 0. -/
def oneTile (v : Variant) (row : List Sample) : Raster :=
  { tiles v .rowMajor 1 1 fun _ _ => 0 with samples := row ++ List.replicate 56 0 }

/-- A machine with `r` in bank 0. -/
def holding (r : Raster) : State := { State.reset with banks := [some r, none, none, none] }

/-- A machine with bytes written at address 0 and SRC_LEN their number. -/
def fed (bs : List Byte) : State := { State.reset.memWrite 0 bs with srcLen := BitVec.ofNat 32 bs.length }

/-- Row 0 of T3: the planar tile with row 0 = 1 0 3 2 2 3 0 1. -/
def planarTile : Raster := oneTile .planar2bpp [1, 0, 3, 2, 2, 3, 0, 1]

/-- Row 0 of T1. -/
def packedTile : Raster := oneTile .packed4bpp [0, 1, 2, 3, 4, 5, 6, 7]

/-- The tiles of T7: 4 x 4, tile (x, y) of value 4y + x. -/
def sheet : State := holding (tiles .packed4bpp .rowMajor 4 4 fun x y => BitVec.ofNat 4 (4 * y + x))

/-- The input of T12, at address 0, and room for 16 bytes at 0x100. -/
def lzInput : State := { fed [0xAA, 0xBB, 0xAA, 0xBB, 0xAA, 0xBB] with dstAddr := 0x100, dstCap := 16 }

/-- The samples in row 0, columns 0 to n - 1, of a bank. -/
def row0 (s : State) (b n : Nat) : List Sample :=
  (List.range n).map fun x => ((s.raster b).map fun r => r.sample x 0).getD 0

/-- STATUS, ERR_INFO0 and ERR_INFO1. -/
def ending (o : Result) : Word × Word × Word := ((after o).statusWord, (after o).errInfo0, (after o).errInfo1)

/-! ### One command each -/

-- T1
theorem test_tdecP4 : row0 (after (exec (.tdecP4 0 .rowMajor)
    { fed ([0x10, 0x32, 0x54, 0x76] ++ List.replicate 28 0) with arg0 := 1, arg1 := 1 })) 0 8 = [0, 1, 2, 3, 4, 5, 6, 7] := by
  decide +kernel

-- T25: palette too large
theorem test_tdecP4_palette :
    ending (exec (.tdecP4 0 .rowMajor) { State.reset with palInSize := 17, arg0 := 1, arg1 := 1 }) = (0x0204, 17, 16) := by
  decide +kernel

-- T3
theorem test_tdecP2 : row0 (after (exec (.tdecP2 0 .rowMajor)
    { fed ([0xA5, 0x3C] ++ List.replicate 14 0) with arg0 := 1, arg1 := 1 })) 0 8 = [1, 0, 3, 2, 2, 3, 0, 1] := by
  decide +kernel

-- R105: a buffer one byte short of a tile holds no whole tile, and is no error
theorem test_tdecP2_short : ending (exec (.tdecP2 0 .rowMajor)
    { fed ([0xA5, 0x3C] ++ List.replicate 13 0) with arg0 := 1, arg1 := 1 }) = (2, 0, 0) ∧
    row0 (after (exec (.tdecP2 0 .rowMajor)
      { fed ([0xA5, 0x3C] ++ List.replicate 13 0) with arg0 := 1, arg1 := 1 })) 0 8 = List.replicate 8 0 := by
  decide +kernel

-- T2
theorem test_tenc : (after (exec (.tenc 0) { holding packedTile with dstAddr := 0x200, dstCap := 32 })).memRead 0x200 5 =
    [0x10, 0x32, 0x54, 0x76, 0] := by decide +kernel

-- T2 with DST_CAP = 31
theorem test_tenc_overflow :
    ending (exec (.tenc 0) { holding packedTile with dstAddr := 0x200, dstCap := 31 }) = (0x0A04, 32, 31) := by
  decide +kernel

-- T25: the product saturates
theorem test_tnewP4_capacity : ending (exec (.tnewP4 0 .rowMajor) { State.reset with arg0 := 0x10000, arg1 := 0x10000 }) =
    (0x0804, 0xFFFFFFFF, 4096) := by decide +kernel

-- R112: palette four times 0, all samples 0
theorem test_tnewP2 : (after (exec (.tnewP2 0 .rowMajor) { State.reset with arg0 := 2, arg1 := 1 })).raster 0 =
    some { variant := .planar2bpp, order := .rowMajor, wt := 2, ht := 1, pal := [0, 0, 0, 0]
           samples := List.replicate 128 0, bp1 := none, bp2 := none } := by decide +kernel

-- T25: the palette is checked before the geometry
theorem test_tnewP2_palette : ending (exec (.tnewP2 0 .rowMajor) { State.reset with palInSize := 5 }) = (0x0204, 5, 4) := by
  decide +kernel

-- T6: column-major source, tiles 1 to 3 of the traversal hold 2, 3, 4
theorem test_txrng : (row0 (after (exec (.txrng 0 1)
    { holding (tiles .packed4bpp .colMajor 3 2 fun x y => BitVec.ofNat 4 (2 * x + y + 1)) with arg0 := 1, arg1 := 4 })) 1 24) =
    List.replicate 8 2 ++ List.replicate 8 3 ++ List.replicate 8 4 := by decide +kernel

-- T6: the end is past the last tile
theorem test_txrng_range : ending (exec (.txrng 0 1)
    { holding (tiles .packed4bpp .colMajor 3 2 fun _ _ => 0) with arg0 := 1, arg1 := 7 }) = (0x0704, 7, 6) := by
  decide +kernel

-- T7: TXRCT (1, 0, 2, 3)
theorem test_txrct : (row0 (after (exec (.txrct 0 2) { sheet with arg0 := 1, arg2 := 2, arg3 := 3 })) 2 16) =
    List.replicate 8 1 ++ List.replicate 8 2 := by decide +kernel

-- T7: x + w = 5 > 4
theorem test_txrct_range :
    ending (exec (.txrct 0 2) { sheet with arg0 := 3, arg2 := 2, arg3 := 3 }) = (0x0704, 5, 4) := by decide +kernel

-- T7: frame 3 of 2 x 2-tile frames
theorem test_txfrm : (row0 (after (exec (.txfrm 0 1) { sheet with arg0 := 3, frameW := 2, frameH := 2 })) 1 16) =
    List.replicate 8 10 ++ List.replicate 8 11 := by decide +kernel

-- T7: 3 does not divide 4
theorem test_txfrm_divide :
    ending (exec (.txfrm 0 1) { sheet with arg0 := 3, frameW := 3, frameH := 2 }) = (0x0404, 3, 4) := by decide +kernel

-- R147's example: plane 1 of row 1 0 3 2 2 3 0 1
theorem test_tbpl1 : ((((after (exec (.tbpl1 0) (holding planarTile))).raster 0).bind Raster.bp1).map (List.take 8)) =
    some [1, 0, 1, 0, 0, 1, 0, 1] := by decide +kernel

-- T24: a packed bank has no planes
theorem test_tbpl1_variant : ending (exec (.tbpl1 0) (holding packedTile)) = (0x0604, 0, 0) := by decide +kernel

-- R148's example
theorem test_tbpl2 : ((((after (exec (.tbpl2 0) (holding planarTile))).raster 0).bind Raster.bp2).map (List.take 8)) =
    some [0, 0, 1, 1, 1, 1, 0, 0] := by decide +kernel

-- T1
theorem test_tpxg : (after (exec (.tpxg 0) { holding packedTile with arg0 := 1 })).result = 1 := by decide +kernel

-- R114: x = 8*WT
theorem test_tpxg_range : ending (exec (.tpxg 0) { holding packedTile with arg0 := 8 }) = (0x0704, 8, 8) := by decide +kernel

-- T24: sample (2, 0) is 3 and sample (3, 0) is 2
theorem test_tpxgB1 : (after (exec (.tpxgB1 0) { holding planarTile with arg0 := 2 })).result = 1 ∧
    (after (exec (.tpxgB1 0) { holding planarTile with arg0 := 3 })).result = 0 := by decide +kernel

-- T24: BANK_DESC after the fill
theorem test_tpxgB1_desc : (after (exec (.tpxgB1 0) (holding planarTile))).readReg .bankDesc = 0x0B := by decide +kernel

-- T24
theorem test_tpxgB2 : (after (exec (.tpxgB2 0) { holding planarTile with arg0 := 3 })).result = 1 ∧
    (after (exec (.tpxgB2 0) { holding planarTile with arg0 := 0 })).result = 0 := by decide +kernel

-- T24: a write drops both planes
theorem test_tpxs : (after (exec (.tpxs 0) { holding ((planarTile.fillPlane .one).fillPlane .two) with arg2 := 2 })).readReg
    .bankDesc = 0x03 := by decide +kernel

-- T9: 4 is no planar sample
theorem test_tpxs_range : ending (exec (.tpxs 0) { holding planarTile with arg2 := 4 }) = (0x0704, 4, 4) := by decide +kernel

-- T12
theorem test_lzcA : (after (exec .lzcA lzInput)).memRead 0x100 9 = [0x10, 6, 0, 0, 0x20, 0xAA, 0xBB, 0x10, 0x01] := by
  decide +kernel

-- T25: the ranges intersect
theorem test_lzcA_overlap : ending (exec .lzcA { State.reset with srcLen := 16, dstAddr := 8, dstCap := 64 }) =
    (0x0904, 8, 64) := by decide +kernel

-- T12
theorem test_lzcB : (after (exec .lzcB lzInput)).memRead 0x100 9 = [0x11, 6, 0, 0, 0x20, 0xAA, 0xBB, 0x30, 0x01] := by
  decide +kernel

-- T17: the tie-break
theorem test_lzcB_nearest :
    compress .nearest .b [1, 2, 3, 9, 1, 2, 3, 8, 1, 2, 3, 7] =
      [0x11, 0x0C, 0, 0, 0x0A, 1, 2, 3, 9, 0x20, 3, 8, 0x20, 3, 7] ∧
    compress .farthest .b [1, 2, 3, 9, 1, 2, 3, 8, 1, 2, 3, 7] =
      [0x11, 0x0C, 0, 0, 0x0A, 1, 2, 3, 9, 0x20, 3, 8, 0x20, 7, 7] := by decide +kernel

/-! ### The host port -/

-- T25: an illegal word
theorem test_step_illegal : ending (step { State.reset with host := [.writeReg 0x08 0x00100002] }) = (0x0104, 0x00100002, 0) := by
  decide +kernel

-- the word handed over is the one that runs (T25, bank 4 of 4)
theorem test_step_fetch : ending (step (State.reset.withFetchWord 32 0x00004001)) = (0x0504, 4, 0) := by decide +kernel

-- R20: the ends of the register map
theorem test_regAt : regAt 0x54 = some .bankHt ∧ regAt 0x58 = some .reserved ∧ regAt 0x7C = some .reserved ∧
    regAt 0x80 = some (.palIn 0) ∧ regAt 0xBC = some (.palIn 15) ∧ regAt 0xC0 = some (.bankPal 0) ∧
    regAt 0xFC = some (.bankPal 15) ∧ regAt 0x100 = none ∧ regAt 0x06 = none := by decide

/-! ### Witnesses: for each statement, a case that meets its hypotheses -/

/-- A command's outcome is the state read off it. -/
theorem runs (i : Instr) (s : State) : exec i s = .next (after (exec i s)) := by
  obtain ⟨t, ht⟩ := exec_ends i s
  rw [ht]; rfl

/-- A machine whose host writes one register. -/
def writing (off : Nat) (v : Word) (s : State) : State := { s with host := [.writeReg off v] }

theorem planarTile_ok : planarTile.Ok Config.standard where
  wt_pos := by decide
  ht_pos := by decide
  tiles := by decide
  pal_full := by decide
  samples_len := by decide
  samples_lt := by decide
  plane_one := nofun
  plane_two := nofun

/-- The planar tile with plane 1 cached. -/
def cachedTile : Raster := planarTile.fillPlane .one

theorem cachedTile_ok : cachedTile.Ok Config.standard := fillPlane_ok .one planarTile_ok rfl

theorem holding_inv {r : Raster} (h : r.Ok Config.standard) : (holding r).Inv where
  cfg_legal := (by decide : Config.standard.Legal)
  banks_legal := by simp [holding, State.nbanks]
  idle := rfl
  one_end := nofun
  done_code := nofun
  err_code := nofun
  info_zero := fun _ => ⟨rfl, rfl⟩
  mem_wf := List.Pairwise.nil
  mem_range := nofun
  rasters := fun q hq => by
    have hqr : q = r := by simpa [holding] using hq
    exact hqr ▸ h

theorem witness_EncodedCommandDecodesToItself : (Instr.txrng 15 0).wf = true := by decide

theorem witness_DecodedWordIsTheCommandWord : decode 0x00031001 = .ok (.tdecP2 1 .colMajor) := by decide

theorem witness_NoWordSelectsTwoRows : opRows[8].selects 0x00040007 = true := by decide

theorem witness_CommandWriteRunsItsInstruction :
    let s := writing 0x08 0x00000102 State.reset
    s.busy = false ∧ s.host = [.writeReg 0x08 0x00000102] ∧ decode 0x00000102 = .ok (.tenc 1) :=
  ⟨rfl, rfl, by decide⟩

theorem witness_IllegalWordEndsInIllegal :
    let s := writing 0x08 0 State.reset
    s.busy = false ∧ s.host = [.writeReg 0x08 0] ∧ (decode 0).toOption = none := ⟨rfl, rfl, by decide⟩

theorem witness_EveryCommandRunsToItsEnd :
    ({ writing 0x08 1 State.reset with busy := true } : State).busy = true ∧ (writing 0x08 1 State.reset).busy = false :=
  ⟨rfl, rfl⟩

theorem witness_FailedCommandChangesNothingElse : ∃ t, step (writing 0x08 0x00000102 State.reset) = .next t ∧ t.err = true :=
  ⟨_, rfl, rfl⟩

theorem witness_FirstFailingCheckIsReported_illegal : (decode 0x000C0007).toOption = none := by decide

/-- The capacity check at its limit, of a machine with banks of two tiles: 2 x 1 fits and 3 x 1 does not. -/
theorem witness_FirstFailingCheckIsReported :
    let small : State := { State.reset with cfg := { Config.standard with bankTiles := 2 }, arg1 := 1 }
    ending (exec (.tnewP4 3 .rowMajor) { small with arg0 := 2 }) = (0x0002, 0, 0) ∧
      ending (exec (.tnewP4 3 .rowMajor) { small with arg0 := 3 }) = (0x0804, 3, 2) ∧
      ending (exec (.tnewP4 4 .rowMajor) { small with arg0 := 2 }) = (0x0504, 4, 0) := by decide +kernel

theorem witness_ResetInputClearsTheBlock : ({ holding planarTile with host := [.reset] } : State).host = [.reset] := rfl

theorem witness_SoftResetKeepsMemory :
    let s := writing 0x00 3 (holding planarTile)
    s.busy = false ∧ s.host = [.writeReg 0x00 3] ∧ (3 : Word).getLsbD 1 = true := ⟨rfl, rfl, by decide⟩

theorem writing_inv {s : State} (off : Nat) (v : Word) (h : s.Inv) : (writing off v s).Inv :=
  ⟨h.1, h.2, h.3, h.4, h.5, h.6, h.7, h.8, h.9, h.10⟩

/-- TPXS on a bank whose plane 1 is cached. -/
theorem witness_StepKeepsTheInvariant : (writing 0x08 0x00000009 (holding cachedTile)).Inv ∧
    ∃ t, step (writing 0x08 0x00000009 (holding cachedTile)) = .next t ∧ t.done = true :=
  ⟨writing_inv _ _ (holding_inv cachedTile_ok), _, rfl, rfl⟩

theorem witness_StepKeepsTheConfiguration : ∃ t, step (writing 0x08 0x00000003 State.reset) = .next t := ⟨_, rfl⟩

theorem witness_CommandsKeepBanksValid :
    exec (.tpxs 0) (holding planarTile) = .next (after (exec (.tpxs 0) (holding planarTile))) ∧
      (holding planarTile).raster 0 ≠ none := ⟨runs _ _, nofun⟩

theorem witness_PlaneCacheIsDroppedExactlyByWriters :
    (holding cachedTile).done = false ∧ (after (exec (.tpxs 0) (holding cachedTile))).done = true ∧
      builtBank (.txrct 0 1) = some 1 ∧
      (after (exec (.txrct 0 1) { holding cachedTile with arg2 := 1, arg3 := 1 })).done = true ∧
      (after (exec (.tbpl2 0) (holding cachedTile))).done = true ∧ cachedTile.bp1.isSome = true := by decide +kernel

theorem witness_BuildersFrame : builtBank (.txrng 0 1) = some 1 ∧
    (after (exec (.txrng 0 1) { holding planarTile with arg1 := 1 })).done = true := by decide +kernel

theorem witness_BankPatchersFrame : patchedBank (.tpxs 0) = some 0 ∧ patchedBank (.tbpl1 0) = some 0 ∧
    patchedBank (.tpxgB2 0) = some 0 ∧ (after (exec (.tpxs 0) (holding planarTile))).done = true ∧
    (after (exec (.tbpl1 0) (holding planarTile))).done = true ∧
    (after (exec (.tpxgB2 0) (holding planarTile))).done = true := by decide +kernel

theorem witness_PixelGetFrame : exec (.tpxg 0) (holding planarTile) = .next (after (exec (.tpxg 0) (holding planarTile))) ∧
    (after (exec (.tpxg 0) (holding planarTile))).err = false ∧ (after (exec (.tpxg 1) (holding planarTile))).err = true :=
  ⟨runs _ _, by decide +kernel⟩

/-- A machine with room for one planar tile at the very end of MEM. -/
def roomForOne : State := { holding planarTile with dstAddr := 0xFFF0, dstCap := 16 }

theorem witness_EncodeFrame : exec (.tenc 0) roomForOne = .next (after (exec (.tenc 0) roomForOne)) ∧
    (after (exec (.tenc 0) roomForOne)).err = false ∧ (after (exec (.tenc 0) { roomForOne with dstCap := 15 })).err = true :=
  ⟨runs _ _, by decide +kernel⟩

theorem witness_CompressFrame : exec .lzcA lzInput = .next (after (exec .lzcA lzInput)) ∧
    (after (exec .lzcA lzInput)).err = false ∧ (after (exec .lzcB { lzInput with dstCap := 8 })).err = true :=
  ⟨runs _ _, by decide +kernel⟩

theorem witness_DecodeBuildsTheBank :
    let s := { fed [0xA5, 0x3C] with arg0 := 1, arg1 := 1, palInSize := 4 }
    3 < s.nbanks ∧ s.palInSize.toNat ≤ palMax .planar2bpp ∧ s.palInSize.toNat ≤ palMax .packed4bpp ∧ 1 ≤ s.arg0.toNat ∧
      1 ≤ s.arg1.toNat ∧ s.arg0.toNat * s.arg1.toNat ≤ s.cfg.bankTiles ∧
      s.srcAddr.toNat + s.srcLen.toNat ≤ s.cfg.memSize := by decide

theorem witness_NewBuildsABlankBank :
    let s := { State.reset with arg0 := 64, arg1 := 64, palInSize := 3 }
    3 < s.nbanks ∧ s.palInSize.toNat ≤ palMax .planar2bpp ∧ s.palInSize.toNat ≤ palMax .packed4bpp ∧ 1 ≤ s.arg0.toNat ∧
      1 ≤ s.arg1.toNat ∧ s.arg0.toNat * s.arg1.toNat ≤ s.cfg.bankTiles := by decide

theorem witness_EncodeWritesTheTiles : roomForOne.raster 0 = some planarTile ∧
    roomForOne.dstAddr.toNat + roomForOne.dstCap.toNat ≤ roomForOne.cfg.memSize ∧
    planarTile.wt.toNat * planarTile.ht.toNat * bytesPerTile planarTile.variant ≤ roomForOne.dstCap.toNat :=
  ⟨rfl, by decide⟩

/-- The 4 x 4 sheet, as a raster. -/
def sheetRaster : Raster := tiles .packed4bpp .rowMajor 4 4 fun x y => BitVec.ofNat 4 (4 * y + x)

theorem witness_RangeExtractsTiles :
    let s := { sheet with arg0 := 15, arg1 := 16 }
    s.raster 0 = some sheetRaster ∧ 1 < s.nbanks ∧ s.arg0.toNat < s.arg1.toNat ∧
      s.arg1.toNat ≤ sheetRaster.wt.toNat * sheetRaster.ht.toNat := ⟨rfl, by decide⟩

theorem witness_RectangleExtractsTiles :
    let s := { sheet with arg0 := 3, arg1 := 2, arg2 := 1, arg3 := 2 }
    s.raster 0 = some sheetRaster ∧ 1 < s.nbanks ∧ 1 ≤ s.arg2.toNat ∧ 1 ≤ s.arg3.toNat ∧
      s.arg0.toNat + s.arg2.toNat ≤ sheetRaster.wt.toNat ∧ s.arg1.toNat + s.arg3.toNat ≤ sheetRaster.ht.toNat :=
  ⟨rfl, by decide⟩

theorem witness_FrameExtractsTiles :
    let s := { sheet with arg0 := 3, frameW := 2, frameH := 2 }
    s.raster 0 = some sheetRaster ∧ 1 < s.nbanks ∧ 1 ≤ s.frameW.toNat ∧ 1 ≤ s.frameH.toNat ∧
      sheetRaster.wt.toNat = 2 * s.frameW.toNat ∧ sheetRaster.ht.toNat = 2 * s.frameH.toNat ∧
      s.arg0.toNat = 1 * 2 + 1 := ⟨rfl, by decide⟩

theorem witness_PlaneCommandFillsTheCache : (holding cachedTile).raster 0 = some cachedTile ∧
    cachedTile.variant = .planar2bpp := ⟨rfl, rfl⟩

theorem witness_PixelGetReturnsTheSample :
    let s := { holding packedTile with arg0 := 7, arg1 := 7 }
    s.raster 0 = some packedTile ∧ s.arg0.toNat < 8 * packedTile.wt.toNat ∧ s.arg1.toNat < 8 * packedTile.ht.toNat ∧
      packedTile.samples[s.arg1.toNat * (8 * packedTile.wt.toNat) + s.arg0.toNat]? = some 0 := ⟨rfl, by decide⟩

theorem witness_PlaneGetReturnsTheSampleBit :
    let s := { holding cachedTile with arg0 := 7, arg1 := 7 }
    s.raster 0 = some cachedTile ∧ cachedTile.Ok s.cfg ∧ cachedTile.variant = .planar2bpp ∧
      s.arg0.toNat < 8 * cachedTile.wt.toNat ∧ s.arg1.toNat < 8 * cachedTile.ht.toNat :=
  ⟨rfl, cachedTile_ok, rfl, by decide, by decide⟩

theorem witness_PixelSetWritesOneSample :
    let s := { holding planarTile with arg0 := 7, arg1 := 7, arg2 := 3 }
    s.raster 0 = some planarTile ∧ planarTile.Ok s.cfg ∧ s.arg0.toNat < 8 * planarTile.wt.toNat ∧
      s.arg1.toNat < 8 * planarTile.ht.toNat ∧ s.arg2.toNat < sampleLimit planarTile.variant :=
  ⟨rfl, planarTile_ok, by decide⟩

/-- The source ends where the destination begins, and the output fills it to the last byte. -/
theorem witness_CompressWritesTheStream :
    let s := { lzInput with dstAddr := 6, dstCap := 9 }
    s.srcAddr.toNat + s.srcLen.toNat ≤ s.cfg.memSize ∧ s.dstAddr.toNat + s.dstCap.toNat ≤ s.cfg.memSize ∧
      s.srcAddr.toNat + s.srcLen.toNat ≤ s.dstAddr.toNat ∧ (s.compressed .a).length ≤ s.dstCap.toNat ∧
      (s.compressed .b).length ≤ s.dstCap.toNat := by decide +kernel

theorem witness_TileWalkIsABijection : 5 < 3 * 2 ∧ tilePos 5 3 2 .colMajor = (2, 1) ∧ tilePos 5 3 2 .rowMajor = (2, 1) := by
  decide

theorem witness_UnpackReadsTheRightBits :
    (List.replicate 32 (0xF0 : Byte))[4 * 7 + 7 / 2]? = some 0xF0 ∧ (List.replicate 16 (0x01 : Byte))[2 * 7 + 1]? = some 1 := by
  decide

theorem witness_PackedTileRoundTrip : (List.replicate 32 (0x5A : Byte)).length = 32 := by decide

theorem witness_PlanarTileRoundTrip : (List.replicate 16 (0x5A : Byte)).length = 16 ∧
    ∀ r c : Nat, r < 8 → c < 8 → ((fun _ _ => 3 : Nat → Nat → Sample) r c).toNat < 4 :=
  ⟨by decide, fun _ _ _ _ => (by decide : (3 : Sample).toNat < 4)⟩

/-- Three tiles of a grid of two are cut to two; the last tile of a grid of four is not there. -/
theorem witness_DecodePlacesTheAvailableTiles : availTiles .planar2bpp 48 2 1 = 2 ∧ availTiles .planar2bpp 48 2 2 = 3 ∧
    3 < 2 * 2 := by decide

theorem witness_EncodeEmitsEveryTileInOrder : 5 < 3 * 2 := by decide

theorem witness_EncodedLength : 64 * 64 ≤ 4096 ∧ 4096 < 2 ^ 27 := by decide

theorem witness_EncodeDecodeRoundTrip : planarTile.Ok Config.standard ∧
    (({ State.reset with palInSize := 4 } : State).palInSize.toNat = palMax planarTile.variant ∧
      ∀ k : Fin 16, k.val < palMax planarTile.variant →
        planarTile.pal[k.val]? = some ({ State.reset with palInSize := 4 } : State).palIn[k]) ∧
    (List.replicate 96 (0x21 : Byte)).length = 3 * 2 * bytesPerTile .planar2bpp :=
  ⟨planarTile_ok, by decide, by decide⟩

theorem witness_OneRowTraversalsCoincide : 2 < 3 ∧ planarTile.ht = 1 ∧ 0 + 1 ≤ planarTile.wt.toNat := by decide

theorem witness_FrameIsARectangle :
    let s := { sheet with arg0 := 3, frameW := 2, frameH := 2 }
    s.raster 0 = some sheetRaster ∧ exec (.txfrm 0 1) s = .next (after (exec (.txfrm 0 1) s)) ∧
      (after (exec (.txfrm 0 1) s)).err = false := ⟨rfl, runs _ _, by decide +kernel⟩

theorem witness_TileRangeIsARunOfTheBuffer : 1 ≤ sheetRaster.wt.toNat ∧ 1 ≤ sheetRaster.ht.toNat ∧ 15 < 16 ∧
    16 ≤ sheetRaster.wt.toNat * sheetRaster.ht.toNat := by decide

theorem witness_MatchSearchFindsTheLongest :
    bytesAgree [0xAA, 0xBB, 0xAA, 0xBB, 0xAA, 0xBB] (2 - 2) 2 4 ∧ findMatch .farthest [0xAA, 0xBB, 0xAA, 0xBB, 0xAA, 0xBB] 2 18 = (4, 2) ∧
      findMatch .farthest [0xAA, 0xBB] 1 18 = (0, 0) := ⟨⟨by decide, by decide⟩, by decide⟩

/-- A match of exactly 3 after one literal, and a literal where the best match has 2 bytes (T11). -/
theorem witness_greedy_loop :
    (tokens .nearest [0x41, 0x41, 0x41, 0x41] 18)[1]? = some (.copy 3 1) ∧
      (tokens .farthest [0x41, 0x41, 0x41] 18)[1]? = some (.literal 0x41) ∧
      findMatch .farthest [0x41, 0x41, 0x41] 1 18 = (2, 1) := by decide

theorem witness_MatchLengthFloor :
    Token.copy 4 2 ∈ tokens .farthest [0xAA, 0xBB, 0xAA, 0xBB, 0xAA, 0xBB] LzVariant.a.maxLen ∧
      ∀ p d, 1 ≤ d → d ≤ min p 4096 → ¬ bytesAgree [1, 2, 3] (p - d) p 3 := by
  refine ⟨by decide, fun p d h1 h2 h => ?_⟩
  have := h.1
  simp at this
  omega

theorem witness_TokenBytesReadBack : 3 ≤ 3 ∧ 18 ≤ LzVariant.a.maxLen ∧ 0x10110 ≤ LzVariant.b.maxLen ∧
    readToken 0x11 true [0x1F, 0xFF, 0xFF, 0xFF] = some (.copy 0x10110 4096, []) := by decide

theorem witness_HeaderHoldsTheLength : 0xFFFFFF ≤ 0xFFFFFF ∧ 0xFFFFFF < 0x1000000 ∧ 0x1000000 < 2 ^ 32 := by decide

theorem witness_ControlByteFlagsTheMatches : [Token.literal 1, .copy 3 1].length ≤ 8 ∧
    controlByte 0 [.literal 1, .copy 3 1] = 0x40 ∧ controlByte 0 (List.replicate 8 (.copy 3 1)) = 0xFF := by decide

theorem witness_CompressThenDecompress : ([0x41] : List Byte).length ≤ 2 ^ 32 - 1 := by decide

theorem witness_CompressedSizeBound : (List.replicate 9 (0 : Byte)).length ≤ 0xFFFFFF ∧
    ∀ p d, 1 ≤ d → d ≤ min p 4096 → ¬ bytesAgree [1, 2, 3] (p - d) p 3 :=
  ⟨by decide, witness_MatchLengthFloor.2⟩

theorem witness_CompressionDependsOnTheInputOnly :
    let s' := { lzInput with dstAddr := 0x200, arg0 := 7 }
    lzInput.cfg.lzTie = s'.cfg.lzTie ∧
      lzInput.memRead lzInput.srcAddr.toNat lzInput.srcLen.toNat = s'.memRead s'.srcAddr.toNat s'.srcLen.toNat ∧
      (after (exec .lzcB lzInput)).err = false ∧ (after (exec .lzcB s')).err = false := ⟨rfl, rfl, by decide +kernel⟩

theorem witness_InterruptLine : State.reset.host = [] ∧ State.reset.busy = false ∧
    ((6 : Word).getLsbD 1 = true ∧ (6 : Word).getLsbD 2 = true ∧ (6 : Word).getLsbD 0 = false) := by decide

theorem witness_StatusAndControlRegisters : (writing 0x00 0xFFFFFFFD State.reset).busy = false ∧
    (0xFFFFFFFD : Word).getLsbD 1 = false ∧ (writing 0x04 6 State.reset).host = [.writeReg 0x04 6] := by decide

theorem witness_BankWindow : (holding planarTile).raster (holding planarTile).bankSel.toNat = some planarTile ∧
    planarTile.Ok (holding planarTile).cfg ∧ State.reset.raster State.reset.bankSel.toNat = none ∧
    ({ State.reset with bankSel := 4 } : State).nbanks ≤ ({ State.reset with bankSel := 4 } : State).bankSel.toNat :=
  ⟨rfl, planarTile_ok, rfl, by decide⟩

theorem witness_RegisterWriteSetsOneRegister : regAt 0xBC = some (.palIn 15) ∧ plainReg (.palIn 15) = true ∧
    regAt 0x10 = some .srcAddr ∧ plainReg .srcAddr = true ∧ (writing 0xBC 7 State.reset).busy = false := by decide

theorem witness_ReservedBitsAndReadOnlyLocations : regAt 0x58 = some .reserved ∧ readOnlyReg .reserved = true ∧
    regAt 0x0C = some .result ∧ readOnlyReg .result = true ∧ regAt 0xFC = some (.bankPal 15) ∧ (writing 0x48 0xFFFFFFF5 State.reset).busy = false := by decide

/-- The last two bytes of MEM. -/
theorem witness_HostReadsAndWritesMemory :
    (0xFFFE : Word).toNat + ([1, 2] : List Byte).length ≤ State.reset.cfg.memSize ∧
      (0xFFFE : Word).toNat + 2 ≤ State.reset.cfg.memSize := by decide

theorem witness_HostPortStops : State.reset.cfg.memSize < (0xFFFF : Word).toNat + ([1, 2] : List Byte).length ∧
    State.reset.cfg.memSize < (0x10000 : Word).toNat + 1 ∧
    (0x06 % 4 ≠ 0 ∨ 0xFC < 0x06) ∧ (0x100 % 4 ≠ 0 ∨ 0xFC < 0x100) ∧ ¬ (0xFC % 4 ≠ 0 ∨ 0xFC < 0xFC) := by decide

end Sys2Proof.Tests
end

section
/-! What one step can do, said once, and the statement of 00_scope.md about the parameters fixed when the hardware is
built (R6, R264). -/

namespace Sys2Proof.Machine

variable {s t : State}

/-- Everything one host action can do to the machine, the action taken off the script. -/
inductive HostEffect (s : State) : State → Prop
  /-- a command word is written to CMD and its command runs (10_state.md R28) -/
  | command {t : State} (w : Word) (hb : s.busy = false) (h : runCommand w s = .next t) : HostEffect s t
  /-- SRST is written while idle (70_reset_and_hazards.md R263) -/
  | softReset (hb : s.busy = false) : HostEffect s (softReset s)
  /-- the reset input, or SRST written while busy (R260, R263) -/
  | hardReset : HostEffect s (hardReset s)
  /-- STATUS is written (10_state.md R31) -/
  | clearStatus (v : Word) : HostEffect s (clearStatus v s)
  /-- bytes of MEM are written (20_memory.md R60) -/
  | store (a : Nat) (bs : List Byte) (hb : s.busy = false) (hm : bs.length = 0 ∨ s.inMem a bs.length) :
    HostEffect s (s.memWrite a bs)
  /-- at most a register only the host writes changes, or what the host read -/
  | hostSide {t : State}
    (h : t = { t with
      cfg := s.cfg, busy := s.busy, done := s.done, err := s.err, errCode := s.errCode, cmd := s.cmd
      result := s.result, dstLen := s.dstLen, errInfo0 := s.errInfo0, errInfo1 := s.errInfo1, banks := s.banks
      mem := s.mem, epoch := s.epoch, host := s.host }) : HostEffect s t

/-! ### Which effect an action has -/

theorem atRegister_cases {off : Nat} {k : Reg → Result} (h : atRegister off k = .next t) :
    ∃ r, regAt off = some r ∧ k r = .next t := by
  unfold atRegister at h
  split at h
  · cases h
  · exact ⟨_, ‹_›, h⟩

theorem atMem_cases {a n : Nat} {k : Result} (h : atMem a n s k = .next t) :
    s.busy = false ∧ (n = 0 ∨ s.inMem a n) ∧ k = .next t := by
  unfold atMem at h
  split at h
  · cases h
  · next hb =>
    split at h
    · exact ⟨by simpa using hb, ‹_›, h⟩
    · cases h

theorem writeReg_effect {r : Reg} {v : Word} (hb : s.busy = false) (h : writeReg r v s = .next t) :
    HostEffect s t := by
  cases r with
  | cmd => exact .command v hb h
  | status => cases h; exact .clearStatus v
  | ctrl =>
    cases h
    unfold writeCtrl
    split
    · exact .softReset hb
    · exact .hostSide rfl
  | _ => cases h; exact .hostSide rfl

theorem writeRegBusy_effect {r : Reg} {v : Word} (h : writeRegBusy r v s = .next t) : HostEffect s t := by
  cases r with
  | cmd => cases h; exact .hostSide rfl
  | status => cases h; exact .clearStatus v
  | ctrl =>
    simp only [writeRegBusy] at h
    split at h
    · cases h; exact .hardReset
    · cases h
  | _ => cases h

theorem hostAct_effect {act : HostAction} (h : hostAct act s = .next t) : HostEffect s t := by
  cases act with
  | writeReg off v =>
    obtain ⟨r, -, h⟩ := atRegister_cases h
    split at h
    · exact writeRegBusy_effect h
    · next hb => exact writeReg_effect (by simpa using hb) h
  | readReg off =>
    obtain ⟨r, -, h⟩ := atRegister_cases h
    split at h
    · cases h
    · cases h; exact .hostSide rfl
  | writeMem a bs =>
    obtain ⟨hb, hm, h⟩ := atMem_cases h
    cases h; exact .store _ bs hb hm
  | readMem a n =>
    obtain ⟨-, -, h⟩ := atMem_cases h
    cases h; exact .hostSide rfl
  | reset => cases h; exact .hardReset

/-- A step waits, or takes the oldest action off the script and has one of its effects. -/
theorem step_cases (h : step s = .next t) :
    (s.host = [] ∧ t = s) ∨ ∃ act rest, s.host = act :: rest ∧ HostEffect { s with host := rest } t := by
  cases hh : s.host with
  | nil => rw [step_idle hh] at h; cases h; exact .inl ⟨rfl, rfl⟩
  | cons act rest => rw [step_act hh] at h; exact .inr ⟨act, rest, rfl, hostAct_effect h⟩

/-! ### The parameters fixed when the hardware is built (R264) -/

theorem Raised.keeps_configuration (h : Raised s t) : t.cfg = s.cfg ∧ t.nbanks = s.nbanks := by
  obtain ⟨e, i0, i1, -, rfl⟩ := h
  exact ⟨rfl, rfl⟩

theorem Effect.keeps_configuration {i : Instr} (h : Effect i s t) : t.cfg = s.cfg ∧ t.nbanks = s.nbanks :=
  ⟨by rw [h.same], h.nbanks⟩

theorem runCommand_keeps_configuration {w : Word} (h : runCommand w s = .next t) :
    t.cfg = s.cfg ∧ t.nbanks = s.nbanks := by
  obtain hr | ⟨i, u, -, hu, rfl⟩ := runCommand_cases h
  · exact hr.keeps_configuration
  · exact hu.keeps_configuration

theorem nbanks_softReset (s : State) : (softReset s).nbanks = s.nbanks := List.length_map _

theorem HostEffect.keeps_configuration (h : HostEffect s t) : t.cfg = s.cfg ∧ t.nbanks = s.nbanks := by
  cases h with
  | command w _ h => exact runCommand_keeps_configuration h
  | softReset => exact ⟨rfl, nbanks_softReset s⟩
  | hardReset => exact ⟨rfl, nbanks_softReset s⟩
  | clearStatus v => exact ⟨rfl, rfl⟩
  | store a bs => exact ⟨rfl, rfl⟩
  | hostSide h => rw [h]; exact ⟨rfl, rfl⟩

/-- Settles O15: waiting changes nothing, and no effect of a host action, a command's included, writes the
configuration or the length of the bank list. -/
theorem stepKeepsTheConfiguration : Obligations.StepKeepsTheConfiguration := by
  intro s t h
  obtain ⟨-, rfl⟩ | ⟨act, rest, -, he⟩ := step_cases h
  · exact ⟨rfl, rfl⟩
  · exact he.keeps_configuration

end Sys2Proof.Machine
end

section
/-! The invariant of the machine between steps (10_state.md R28, R31, R39, R44, 42_planar2bpp.md R151). Its two halves are
kept for different reasons: what is stored by the checks of each command, the status by how a command ends. -/

namespace Sys2Proof.Machine

variable {s t : State}

/-- The half of `State.Inv` about what the machine stores. It holds inside a command too. -/
structure State.Stored (s : State) : Prop where
  cfg_legal : s.cfg.Legal
  banks_legal : 2 ≤ s.nbanks ∧ s.nbanks ≤ 16
  mem_wf : s.mem.wf
  mem_range : ∀ cell ∈ s.mem, cell.1 < s.cfg.memSize
  rasters : ∀ r, some r ∈ s.banks → r.Ok s.cfg

/-- The half of `State.Inv` about STATUS and the information words. A command breaks it at acceptance and both of its ends
restore it. -/
structure State.Settled (s : State) : Prop where
  idle : s.busy = false
  one_end : ¬ (s.done = true ∧ s.err = true)
  done_code : s.done = true → s.errCode = .none
  err_code : s.err = true → s.errCode ≠ .none
  info_zero : s.errCode = .none → s.errInfo0 = 0 ∧ s.errInfo1 = 0

theorem inv_iff : s.Inv ↔ s.Stored ∧ s.Settled where
  mp h := ⟨⟨h.cfg_legal, h.banks_legal, h.mem_wf, h.mem_range, h.rasters⟩,
    ⟨h.idle, h.one_end, h.done_code, h.err_code, h.info_zero⟩⟩
  mpr := fun ⟨hs, hq⟩ => ⟨hs.cfg_legal, hs.banks_legal, hq.idle, hq.one_end, hq.done_code, hq.err_code, hq.info_zero,
    hs.mem_wf, hs.mem_range, hs.rasters⟩

/-! ### What is stored -/

theorem State.Stored.congr (h : s.Stored) (hc : t.cfg = s.cfg) (hb : t.banks = s.banks) (hm : t.mem = s.mem) :
    t.Stored where
  cfg_legal := hc ▸ h.cfg_legal
  banks_legal := nbanks_congr hb ▸ h.banks_legal
  mem_wf := hm ▸ h.mem_wf
  mem_range := hm ▸ hc ▸ h.mem_range
  rasters := hb ▸ hc ▸ h.rasters

theorem State.Stored.setRaster {r : Raster} (h : s.Stored) (b : Nat) (hr : r.Ok s.cfg) : (s.setRaster b r).Stored where
  cfg_legal := h.cfg_legal
  banks_legal := nbanks_setRaster s b r ▸ h.banks_legal
  mem_wf := h.mem_wf
  mem_range := h.mem_range
  rasters q hq := (mem_setRaster hq).elim (h.rasters q) (· ▸ hr)

theorem State.Stored.memWrite {a : Nat} {bs : List Byte} (h : s.Stored) (hm : bs.length = 0 ∨ s.inMem a bs.length) :
    (s.memWrite a bs).Stored where
  cfg_legal := h.cfg_legal
  banks_legal := h.banks_legal
  mem_wf := memWrite_wf a bs h.mem_wf
  mem_range cell hc := by
    rcases mem_storeAll hc with hc | hc
    · exact h.mem_range cell hc
    · simp only [State.inMem] at hm
      simp only [memWrite_cfg]
      omega
  rasters := h.rasters

theorem State.Stored.softReset (h : s.Stored) : (softReset s).Stored where
  cfg_legal := h.cfg_legal
  banks_legal := nbanks_softReset s ▸ h.banks_legal
  mem_wf := h.mem_wf
  mem_range := h.mem_range
  rasters r hr := by simp at hr

theorem State.Stored.hardReset (h : s.Stored) : (hardReset s).Stored where
  cfg_legal := h.cfg_legal
  banks_legal := nbanks_softReset s ▸ h.banks_legal
  mem_wf := List.Pairwise.nil
  mem_range := nofun
  rasters := h.softReset.rasters

theorem Effect.stored {i : Instr} (h : Effect i s t) (hs : s.Stored) : t.Stored := by
  cases h with
  | build db r _ _ hr =>
    obtain ⟨-, -, hok⟩ := hr
    exact hs.setRaster db (hok hs.rasters)
  | patch n r q _ hr hq w _ => exact (hs.setRaster n (hq.ok (hs.rasters r (raster_mem hr)))).congr rfl rfl rfl
  | get sb w _ => exact hs.congr rfl rfl rfl
  | emit out _ hd ho =>
    have hin : s.inMem s.dstAddr.toNat out.length := by simp only [State.inMem] at hd ⊢; omega
    exact (hs.memWrite (.inr hin)).congr rfl rfl rfl

/-! ### The status -/

theorem State.Settled.congr (h : s.Settled)
    (ht : t = { t with
      busy := s.busy, done := s.done, err := s.err, errCode := s.errCode, errInfo0 := s.errInfo0
      errInfo1 := s.errInfo1 }) : t.Settled := by
  rw [ht]
  exact ⟨h.idle, h.one_end, h.done_code, h.err_code, h.info_zero⟩

theorem Raised.settled (h : Raised s t) : t.Settled := by
  obtain ⟨e, i0, i1, he, rfl⟩ := h
  exact ⟨rfl, by simp, by simp, fun _ => he, fun hn => absurd hn he⟩

/-- Completion leaves ERRCODE and the information words as acceptance cleared them (60_exceptions.md R231). -/
theorem complete_settled (hc : s.errCode = .none) (h0 : s.errInfo0 = 0) (h1 : s.errInfo1 = 0) :
    (complete s).Settled :=
  ⟨rfl, by simp, fun _ => hc, by simp, fun _ => ⟨h0, h1⟩⟩

theorem softReset_settled (s : State) : (softReset s).Settled := ⟨rfl, by simp, by simp, by simp, fun _ => ⟨rfl, rfl⟩⟩

/-- Clearing a flag sets neither. -/
theorem clearStatus_settled (v : Word) (h : s.Settled) : (clearStatus v s).Settled where
  idle := h.idle
  one_end := fun ⟨hd, he⟩ => h.one_end ⟨(Bool.and_eq_true_iff.mp hd).left, (Bool.and_eq_true_iff.mp he).left⟩
  done_code hd := h.done_code (Bool.and_eq_true_iff.mp hd).left
  err_code he := h.err_code (Bool.and_eq_true_iff.mp he).left
  info_zero := h.info_zero

/-! ### Each effect keeps both halves -/

theorem Raised.inv (h : Raised s t) (hs : s.Stored) : t.Inv := by
  have ht : t.Stored := by rw [h.same]; exact hs.congr rfl rfl rfl
  exact inv_iff.mpr ⟨ht, h.settled⟩

/-- A command written to CMD restores the invariant from what is stored, whatever STATUS held before. -/
theorem runCommand_inv {w : Word} (h : runCommand w s = .next t) (hs : s.Stored) : t.Inv := by
  have ha : (accept w s).Stored := hs.congr rfl rfl rfl
  obtain hr | ⟨i, u, -, hu, rfl⟩ := runCommand_cases h
  · exact hr.inv ha
  · have hq : (complete u).Settled := by rw [hu.same]; exact complete_settled rfl rfl rfl
    exact inv_iff.mpr ⟨(hu.stored ha).congr rfl rfl rfl, hq⟩

theorem HostEffect.inv (h : HostEffect s t) (hi : s.Inv) : t.Inv := by
  obtain ⟨hs, hq⟩ := inv_iff.mp hi
  cases h with
  | command w _ h => exact runCommand_inv h hs
  | softReset => exact inv_iff.mpr ⟨hs.softReset, softReset_settled s⟩
  | hardReset => exact inv_iff.mpr ⟨hs.hardReset, (softReset_settled s).congr rfl⟩
  | clearStatus v => exact inv_iff.mpr ⟨hs.congr rfl rfl rfl, clearStatus_settled v hq⟩
  | store a bs _ hm => exact inv_iff.mpr ⟨hs.memWrite hm, hq.congr rfl⟩
  | hostSide h =>
    rw [h]
    exact inv_iff.mpr ⟨hs.congr rfl rfl rfl, hq.congr rfl⟩

/-- Settles O14: a step waits or has one effect of a host action, and each effect keeps the invariant. -/
theorem stepKeepsTheInvariant : Obligations.StepKeepsTheInvariant := by
  intro s t hi h
  obtain ⟨-, rfl⟩ | ⟨act, rest, -, he⟩ := step_cases h
  · exact hi
  · obtain ⟨hs, hq⟩ := inv_iff.mp hi
    exact he.inv (inv_iff.mpr ⟨hs.congr rfl rfl rfl, hq.congr rfl⟩)

/-- Settles O13: nothing is written, no bank is valid and every flag is 0. -/
theorem resetMeetsTheInvariant : Obligations.ResetMeetsTheInvariant :=
  inv_iff.mpr ⟨⟨by decide, by decide, reset_mem_wf, nofun, fun r hr => by simp [State.reset] at hr⟩,
    softReset_settled State.reset⟩

end Sys2Proof.Machine
end

section
/-! Running a command: acceptance, its end, and what it leaves unchanged (10_state.md R28, R40, R46, 42_planar2bpp.md
R151). Every proof goes through the four effects a command can have. -/

namespace Sys2Proof.Machine

variable {i : Instr} {s t u : State} {b n db : Nat} {r q : Raster}

/-! ### Acceptance and the end -/

/-- Settles O5: `accept` writes exactly the fields the statement lists. -/
theorem commandWriteRunsItsInstruction : Obligations.CommandWriteRunsItsInstruction := by
  intro s w i rest hb hh hd
  rw [step_cmd hb hh, runCommand, hd]
  rfl

/-- How a command ends, from the state it was accepted in: exactly one of DONE and ERR, with the codes that go with
it (60_exceptions.md R230, R231). -/
theorem runCommand_end {w : Word} (h : runCommand w s = .next t) :
    t.busy = false ∧ t.done = !t.err ∧ t.cmd = w ∧ t.host = s.host ∧
      (t.done = true → t.errCode = .none ∧ t.errInfo0 = 0 ∧ t.errInfo1 = 0) ∧ (t.err = true → t.errCode ≠ .none) := by
  obtain ⟨e, i0, i1, he, rfl⟩ | ⟨i, u, -, hu, rfl⟩ := runCommand_cases h
  · exact ⟨rfl, rfl, rfl, rfl, by simp, fun _ => he⟩
  · rw [hu.same]
    exact ⟨rfl, rfl, rfl, rfl, fun _ => ⟨rfl, rfl, rfl⟩, by simp⟩

/-- Settles O7: a command written to CMD always answers a next state, which is one of the two ends. -/
theorem everyCommandRunsToItsEnd : Obligations.EveryCommandRunsToItsEnd := by
  refine ⟨fun s w rest hb hh => step_cmd_busy hb hh, fun s w rest hb hh => ?_⟩
  obtain ⟨t, ht⟩ := runCommand_ends w { s with host := rest }
  exact ⟨t, (step_cmd hb hh).trans ht, runCommand_end ht⟩

/-! ### Which effect a builder and a patcher have -/

theorem builtBank_eq_none (h : patchedBank i = some n) : builtBank i = none := by
  cases i with
  | tbpl1 | tbpl2 | tpxgB1 | tpxgB2 | tpxs => rfl
  | _ => cases h

theorem Effect.of_builder (hi : builtBank i = some db) (h : Effect i s u) :
    ∃ r, db < s.nbanks ∧ Built s r ∧ u = s.setRaster db r := by
  cases h with
  | build db' r hi' hd hr =>
    obtain rfl : db = db' := Option.some.inj (hi.symm.trans hi')
    exact ⟨r, hd, hr, rfl⟩
  | patch n r q hi' => rw [builtBank_eq_none hi'] at hi; cases hi
  | get sb w hi' => rw [hi'] at hi; cases hi
  | emit out hi' => obtain ⟨sb, rfl⟩ | rfl | rfl := hi' <;> cases hi

theorem Effect.of_patcher (hi : patchedBank i = some n) (h : Effect i s u) :
    ∃ r q w, s.raster n = some r ∧ Patched i n s r q ∧ (w = s.result ∨ i = .tpxgB1 n ∨ i = .tpxgB2 n) ∧
      u = { s.setRaster n q with result := w } := by
  cases h with
  | build db r hi' => rw [builtBank_eq_none hi] at hi'; cases hi'
  | patch n' r q hi' hr hq w hw =>
    obtain rfl : n = n' := Option.some.inj (hi.symm.trans hi')
    exact ⟨r, q, w, hr, hq, hw, rfl⟩
  | get sb w hi' => rw [hi'] at hi; cases hi
  | emit out hi' => obtain ⟨sb, rfl⟩ | rfl | rfl := hi' <;> cases hi

/-! ### Valid banks stay valid (10_state.md R46) -/

theorem raster_setRaster_ne_none (h : s.raster b ≠ none) : (s.setRaster n q).raster b ≠ none := by
  by_cases hb : b = n
  · obtain ⟨r, hr⟩ := Option.ne_none_iff_exists'.mp h
    rw [hb, raster_setRaster_same q (hb ▸ raster_lt hr)]
    simp
  · rwa [raster_setRaster_other hb]

theorem Effect.keeps_valid (h : Effect i s u) (hb : s.raster b ≠ none) : u.raster b ≠ none := by
  cases h with
  | build => exact raster_setRaster_ne_none hb
  | patch => exact raster_setRaster_ne_none hb
  | get => exact hb
  | emit => exact hb

/-- Settles O16: an error leaves the banks, and an effect writes at most one bank, with a raster. -/
theorem commandsKeepBanksValid : Obligations.CommandsKeepBanksValid := by
  intro i s t b h hb
  obtain ⟨e, i0, i1, -, rfl⟩ | ⟨u, hu, rfl⟩ := exec_effect h
  · exact hb
  · exact hu.keeps_valid hb

/-! ### The plane cache (42_planar2bpp.md R150, R151) -/

theorem fillPlane_bp1_of_cached (p : Plane) (h : r.bp1.isSome) : (r.fillPlane p).bp1 = r.bp1 := by
  cases p with
  | one =>
    obtain ⟨cells, hc⟩ := Option.isSome_iff_exists.mp h
    simp [fillPlane_one, hc]
  | two => simp [fillPlane_two]

theorem fillPlane_bp2_of_cached (p : Plane) (h : r.bp2.isSome) : (r.fillPlane p).bp2 = r.bp2 := by
  cases p with
  | one => simp [fillPlane_one]
  | two =>
    obtain ⟨cells, hc⟩ := Option.isSome_iff_exists.mp h
    simp [fillPlane_two, hc]

/-- A command that fills a plane is no TPXS. -/
theorem Fills.ne_tpxs {p : Plane} (h : Fills i n p) (m : Nat) : i ≠ .tpxs m := by
  rintro rfl
  cases p <;> obtain h | h := h <;> cases h

theorem Effect.drops_planes (h : Effect i s u) (hi : builtBank i = some b ∨ i = .tpxs b) :
    ∃ r, u.raster b = some r ∧ r.bp1 = none ∧ r.bp2 = none := by
  obtain hi | rfl := hi
  · obtain ⟨r, hd, ⟨h1, h2, -⟩, rfl⟩ := h.of_builder hi
    exact ⟨r, raster_setRaster_same r hd, h1, h2⟩
  · obtain ⟨r, q, w, hr, hq, -, rfl⟩ := h.of_patcher rfl
    cases hq with
    | sample => exact ⟨_, raster_setRaster_same _ (raster_lt hr), rfl, rfl⟩
    | plane p _ hp => exact absurd rfl (hp.ne_tpxs b)

theorem Effect.keeps_planes (h : Effect i s u) (hi : ¬ (builtBank i = some b ∨ i = .tpxs b))
    (hr : s.raster b = some r) :
    ∃ r', u.raster b = some r' ∧ (r.bp1.isSome → r'.bp1 = r.bp1) ∧ (r.bp2.isSome → r'.bp2 = r.bp2) := by
  have kept (hu : u.raster b = s.raster b) :
      ∃ r', u.raster b = some r' ∧ (r.bp1.isSome → r'.bp1 = r.bp1) ∧ (r.bp2.isSome → r'.bp2 = r.bp2) :=
    ⟨r, hu.trans hr, fun _ => rfl, fun _ => rfl⟩
  cases h with
  | build db q hdb =>
    have hne : b ≠ db := fun he => hi (.inl (he ▸ hdb))
    exact kept (raster_setRaster_other hne)
  | patch n r₀ q hn hr₀ hq w =>
    by_cases hb : b = n
    · subst hb
      obtain rfl : r₀ = r := Option.some.inj (hr₀.symm.trans hr)
      cases hq with
      | sample hs => exact absurd (.inr hs) hi
      | plane p =>
        exact ⟨_, raster_setRaster_same _ (raster_lt hr), fillPlane_bp1_of_cached p, fillPlane_bp2_of_cached p⟩
    · exact kept (raster_setRaster_other hb)
  | get => exact kept rfl
  | emit => exact kept rfl

/-- Settles O17: a command that completes did not end in an error, so it had one of the four effects. -/
theorem planeCacheIsDroppedExactlyByWriters : Obligations.PlaneCacheIsDroppedExactlyByWriters := by
  intro i s t h hdone _
  obtain ⟨e, i0, i1, -, rfl⟩ | ⟨u, hu, rfl⟩ := exec_effect h
  · cases hdone
  · exact ⟨fun b hi => hu.drops_planes hi, fun b r hi hr => hu.keeps_planes hi hr⟩

/-! ### Frames (10_state.md R40) -/

/-- Settles O18: the command ends in an error, or in one bank built and nothing else. -/
theorem buildersFrame : Obligations.BuildersFrame := by
  intro i s t db hi h
  obtain ⟨e, i0, i1, -, rfl⟩ | ⟨u, hu, rfl⟩ := exec_effect h
  · exact ⟨rfl, rfl, fun _ _ => rfl, fun _ => rfl, nofun⟩
  · obtain ⟨r, -, -, rfl⟩ := hu.of_builder hi
    exact ⟨rfl, nbanks_setRaster s db r, fun b hb => raster_setRaster_other hb, fun _ => rfl,
      fun _ => ⟨rfl, rfl, rfl⟩⟩

/-- What a patch leaves of the raster: all but its samples and planes, the samples unless it is TPXS, and the plane that a
fill does not name. -/
theorem Patched.frame (h : Patched i n s r q) :
    q.variant = r.variant ∧ q.order = r.order ∧ q.wt = r.wt ∧ q.ht = r.ht ∧ q.pal = r.pal ∧
      (q.samples = r.samples ∨ i = .tpxs n) ∧ (Fills i n .one → q.bp2 = r.bp2) ∧ (Fills i n .two → q.bp1 = r.bp1) := by
  cases h with
  | sample hs =>
    exact ⟨rfl, rfl, rfl, rfl, rfl, .inr hs, fun hf => absurd hs (hf.ne_tpxs n), fun hf => absurd hs (hf.ne_tpxs n)⟩
  | plane p _ hp =>
    refine ⟨by simp, by simp, by simp, by simp, by simp, .inl (by simp), fun hf => ?_, fun hf => ?_⟩
    · cases p with
      | one => simp [fillPlane_one]
      | two => obtain rfl | rfl := hp <;> obtain hf | hf := hf <;> cases hf
    · cases p with
      | one => obtain rfl | rfl := hp <;> obtain hf | hf := hf <;> cases hf
      | two => simp [fillPlane_two]

/-- Settles O19: the command ends in an error, or in a patch of the bank it names. -/
theorem bankPatchersFrame : Obligations.BankPatchersFrame := by
  intro i s t n hi h
  obtain ⟨e, i0, i1, -, rfl⟩ | ⟨u, hu, rfl⟩ := exec_effect h
  · exact ⟨rfl, .inl rfl, rfl, fun _ _ => rfl, fun _ => rfl,
      fun r hr => ⟨r, hr, rfl, rfl, rfl, rfl, rfl, .inl rfl, fun _ => rfl, fun _ => rfl⟩, nofun⟩
  · obtain ⟨r, q, w, hr, hq, hw, rfl⟩ := hu.of_patcher hi
    refine ⟨rfl, hw, nbanks_setRaster s n q, fun b hb => raster_setRaster_other hb, fun _ => rfl, fun r' hr' => ?_,
      fun _ => ⟨rfl, rfl, rfl⟩⟩
    obtain rfl : r = r' := Option.some.inj (hr.symm.trans hr')
    exact ⟨q, raster_setRaster_same q (raster_lt hr), hq.frame⟩

/-! ### TDEC completes (40_tile_grid.md R108, R109) -/

theorem tdec_ok {v : Variant} {c : Traversal} (hd : db < s.nbanks) (hp : s.palInSize.toNat ≤ palMax v)
    (hw : 1 ≤ s.arg0.toNat) (hh : 1 ≤ s.arg1.toNat) (hc : s.arg0.toNat * s.arg1.toNat ≤ s.cfg.bankTiles)
    (hm : s.srcAddr.toNat + s.srcLen.toNat ≤ s.cfg.memSize) :
    tdec v db c s = .next (complete (buildFrom (s.memRead s.srcAddr.toNat s.srcLen.toNat) v c db (s.loadedPalette v)
      s.arg0 s.arg1 s)) := by
  rw [tdec, withDest_ok hd, withPalette_ok hp, withGeometry_ok hw hh hc, withBuffer_ok hm, finish]

/-- Settles O23: with every check passed, TDEC builds the bank with the loaded palette. -/
theorem decodeBuildsTheBank : Obligations.DecodeBuildsTheBank := by
  refine ⟨⟨rfl, rfl⟩, fun i v db c s hi hd hp hw hh hc hm => ⟨s.loadedPalette v, ?_, loadedPalette_length hp,
    fun k hk => loadedPalette_loaded hk k.isLt, fun k hs hk => loadedPalette_padding hp hs hk⟩⟩
  obtain ⟨rfl, rfl⟩ | ⟨rfl, rfl⟩ := hi
  · exact tdec_ok hd hp hw hh hc hm
  · exact tdec_ok hd hp hw hh hc hm

end Sys2Proof.Machine
end

section
/-! The register file as the host sees it: what each location reads as, what a write to it does, and what reset leaves
(10_state.md R20 to R37, R51, 70_reset_and_hazards.md R263). -/

namespace Sys2Proof.Machine

variable {s : State} {r : Reg} {v : Word}

/-! ### Reset -/

theorem windowWord_eq_zero (f : Raster → Word) (h : s.window = none) : s.windowWord f = 0 := by
  rw [State.windowWord, h]

theorem softReset_statusWord (s : State) : (softReset s).statusWord = 0 := by
  show State.reset.statusWord = 0
  decide

theorem softReset_readReg (s : State) (r : Reg) : (softReset s).readReg r = 0 := by
  cases r with
  | bankDesc | bankWt | bankHt | bankPal => exact windowWord_eq_zero _ (softReset_raster s _)
  | palIn i => simp [State.readReg, softReset, State.reset]
  | status => exact softReset_statusWord s
  | _ => rfl

/-- Settles O10: the reset state is the soft reset of itself. -/
theorem resetReadsZero : Obligations.ResetReadsZero :=
  ⟨softReset_readReg State.reset, softReset_raster State.reset, rfl, fun _ => rfl⟩

/-- Settles O12: the write is a soft reset, which copies MEM, the configuration and the host's script. -/
theorem softResetKeepsMemory : Obligations.SoftResetKeepsMemory := by
  intro s v rest hb hh hv
  have hstep : step s = .next (softReset { s with host := rest }) := by
    rw [step_writeReg hb hh (r := .ctrl) rfl, writeReg, writeCtrl, if_pos hv]
  exact ⟨_, hstep, softReset_readReg _, softReset_raster _, nbanks_softReset _, rfl, fun _ => rfl, rfl, rfl⟩

/-! ### Writes of the plain registers (10_state.md R20) -/

theorem readReg_bankSel_toNat (s : State) : (s.readReg .bankSel).toNat = s.bankSel.toNat :=
  BitVec.toNat_setWidth_of_le (by decide)

/-- A write to a plain register is seen there and at no other location, and reaches neither banks nor MEM. -/
theorem writeReg_plain (s : State) (v : Word) (h : plainReg r = true) :
    ∃ t, writeReg r v s = .next t ∧ (∀ q, t.readReg q = if q = r then v else s.readReg q) ∧ t.banks = s.banks ∧
      t.mem = s.mem ∧ t.epoch = s.epoch := by
  cases r with
  | srcAddr | srcLen | dstAddr | dstCap | arg0 | arg1 | arg2 | arg3 | frameW | frameH | palInSize =>
    exact ⟨_, rfl, fun q => by cases q <;> rfl, rfl, rfl, rfl⟩
  | palIn i =>
    refine ⟨_, rfl, fun q => ?_, rfl, rfl, rfl⟩
    cases q with
    | palIn j => simp [State.readReg, Vector.getElem_set, Fin.ext_iff, eq_comm]
    | _ => rfl
  | _ => cases h

/-- Settles O57: the map and the fields are read off the definitions, a plain write is `writeReg_plain`. -/
theorem registerWriteSetsOneRegister : Obligations.RegisterWriteSetsOneRegister := by
  refine ⟨by decide, by decide, fun s => ?_, fun s off v r rest hb hh hr hp => ?_⟩
  · exact ⟨rfl, rfl, rfl, rfl, rfl, rfl, rfl, rfl, rfl, rfl, rfl, rfl, rfl, rfl, rfl, rfl, readReg_bankSel_toNat s,
      fun _ => rfl⟩
  · obtain ⟨t, ht, hread, hbanks, hmem, hepoch⟩ := writeReg_plain { s with host := rest } v hp
    refine ⟨t, (step_writeReg hb hh hr).trans ht, by rw [hread, if_pos rfl], fun q hq => ?_, hbanks,
      memByte_congr hmem hepoch⟩
    rw [hread, if_neg hq]
    cases q <;> rfl

/-! ### Reads, and writes that are ignored in part or whole (20_memory.md R65, 10_state.md R36, R37) -/

theorem writeReg_readOnly (s : State) (v : Word) (h : readOnlyReg r = true) : writeReg r v s = .next s := by
  cases r with
  | result | dstLen | errInfo0 | errInfo1 | bankDesc | bankWt | bankHt | reserved | bankPal => rfl
  | _ => cases h

theorem regAt_reserved {off : Nat} (hl : 0x58 ≤ off) (hu : off ≤ 0x7C) (ha : off % 4 = 0) :
    regAt off = some .reserved := by
  have hend : lowRegs.length ≤ off / 4 := by
    show 22 ≤ off / 4
    omega
  rw [regAt, if_neg (by omega), if_pos (by omega), List.getD_eq_default _ _ hend]

/-- Settles O58: a read and an ignored write only take the action off the script. -/
theorem reservedBitsAndReadOnlyLocations : Obligations.ReservedBitsAndReadOnlyLocations := by
  refine ⟨fun s off r rest hb hh hr => step_readReg hb hh hr, fun s v rest hb hh => ?_,
    fun s off v r rest hb hh hr ho => ?_, fun s off hl hu ha => ⟨regAt_reserved hl hu ha, rfl⟩⟩
  · exact ⟨_, step_writeReg hb hh (r := .bankSel) rfl, by simp [readReg_bankSel_toNat], rfl⟩
  · rw [step_writeReg hb hh hr, writeReg_readOnly _ v ho]

/-! ### STATUS and CTRL (10_state.md R30, R31) -/

/-- The ERRCODE field of STATUS: bits 15:8, of which no code reaches the upper four. -/
theorem errCodeField_bit (e : ErrCode) {k : Nat} (hk : k < 32) :
    (BitVec.ofNat 32 e.number <<< 8).getLsbD k = (decide (8 ≤ k ∧ k < 16) && e.number.testBit (k - 8)) := by
  rw [BitVec.getLsbD_shiftLeft, BitVec.getLsbD_ofNat]
  have hn := errCode_number_lt e
  by_cases hlo : 8 ≤ k
  · by_cases hhi : k < 16
    · simp [hk, hlo, hhi, show ¬ k < 8 by omega, show k - 8 < 32 by omega]
    · have hpow : e.number < 2 ^ (k - 8) := calc
        e.number < 2 ^ 4 := hn
        _ ≤ 2 ^ (k - 8) := Nat.pow_le_pow_right (by decide) (by omega)
      simp [Nat.testBit_lt_two_pow hpow]
  · simp [show k < 8 by omega]

theorem statusWord_bit (s : State) {k : Nat} (hk : k < 32) : s.statusWord.getLsbD k =
    if k = 0 then s.busy else if k = 1 then s.done else if k = 2 then s.err
    else if 8 ≤ k ∧ k < 16 then s.errCode.number.testBit (k - 8) else false := by
  simp only [State.statusWord, BitVec.getLsbD_or, flagBit_bit _ _ _ hk, errCodeField_bit _ hk]
  by_cases h0 : k = 0
  · simp [h0]
  by_cases h1 : k = 1
  · simp [h1]
  by_cases h2 : k = 2
  · simp [h2]
  · simp [h0, h1, h2]

/-- A write to STATUS is the same whether BUSY is 0 or 1 (R31, 70_reset_and_hazards.md R270). -/
theorem step_writeStatus {rest : List HostAction} (h : s.host = .writeReg 0x04 v :: rest) :
    step s = .next (clearStatus v { s with host := rest }) := by
  rw [step_act h]
  exact ite_self _

/-- Settles O55: CTRL has the one flag IE, and the fields of STATUS do not overlap. -/
theorem statusAndControlRegisters : Obligations.StatusAndControlRegisters := by
  refine ⟨by decide, fun s k hk => flagBit_bit s.ie 0 k hk, fun s v rest hb hh hv => ?_,
    fun s k hk => statusWord_bit s hk, fun s v rest hh => step_writeStatus hh⟩
  rw [step_writeReg hb hh (r := .ctrl) rfl, writeReg, writeCtrl, hv, if_neg Bool.false_ne_true]

/-! ### The read-back window (10_state.md R36) -/

theorem descWord_toNat (r : Raster) : r.descWord.toNat =
    1 + 2 * (if r.variant = .planar2bpp then 1 else 0) + 4 * (if r.order = .colMajor then 1 else 0) +
      8 * (if r.bp1.isSome then 1 else 0) + 16 * (if r.bp2.isSome then 1 else 0) := by
  rw [Raster.descWord]
  cases r.variant <;> cases r.order <;> cases r.bp1.isSome <;> cases r.bp2.isSome <;> rfl

/-- Settles O56: every window register goes through `windowWord`, and a proper raster's palette is full size. -/
theorem bankWindow : Obligations.BankWindow := by
  refine fun s => ⟨fun r hr => ?_, fun h => ?_⟩
  · have hw (f : Raster → Word) : s.windowWord f = f r := by rw [State.windowWord, State.window, hr]
    refine ⟨(congrArg BitVec.toNat (hw _)).trans (descWord_toNat r), hw _, hw _, fun hok k => ⟨fun hk => ?_, fun hk => ?_⟩⟩
    · have hlt : k.val < r.pal.length := hok.pal_full ▸ hk
      rw [State.readReg, hw, List.getD_eq_getElem _ _ hlt, List.getElem?_eq_getElem hlt]
    · have hge : r.pal.length ≤ k.val := hok.pal_full ▸ hk
      rw [State.readReg, hw, List.getD_eq_default _ _ hge]
  · have hn : s.window = none := h.elim raster_none_of_ge id
    exact ⟨windowWord_eq_zero _ hn, windowWord_eq_zero _ hn, windowWord_eq_zero _ hn, fun _ => windowWord_eq_zero _ hn⟩

end Sys2Proof.Machine
end

section
/-! MEM as the commands and the host use it (20_memory.md): what the commands with an output buffer leave unchanged and
write (R72 to R74), the host's accesses to MEM (R60, R62, R65), and where the host port stops (R63, log 10). -/

namespace Sys2Proof.Machine

variable {s t : State} {out : List Byte}

/-! ### Commands with an output buffer: TENC, LZC.A, LZC.B -/

/-- A command with an output buffer ends in an error or with the whole output written (R74); either way it changes
STATUS, the information words, DST_LEN and MEM only, and an error leaves the last two. -/
theorem output_frame (h : Raised s t ∨ ∃ out, t = complete (wroteOutput s out)) :
    t = { s with busy := false, done := t.done, err := t.err, errCode := t.errCode, errInfo0 := t.errInfo0,
                 errInfo1 := t.errInfo1, mem := t.mem, dstLen := t.dstLen } ∧
    (t.err = true → t.dstLen = s.dstLen ∧ ∀ a, t.memByte a = s.memByte a) ∧
    (t.err = false → t.errCode = s.errCode ∧ t.errInfo0 = s.errInfo0 ∧ t.errInfo1 = s.errInfo1) := by
  obtain ⟨e, i0, i1, -, rfl⟩ | ⟨out, rfl⟩ := h
  · exact ⟨rfl, fun _ => ⟨rfl, fun _ => rfl⟩, nofun⟩
  · exact ⟨rfl, nofun, fun _ => ⟨rfl, rfl, rfl⟩⟩

theorem output_memByte_outside {a : Nat} (h : Raised s t ∨ t = complete (wroteOutput s out))
    (ha : a < s.dstAddr.toNat ∨ s.dstAddr.toNat + out.length ≤ a) : t.memByte a = s.memByte a := by
  obtain ⟨e, i0, i1, -, rfl⟩ | rfl := h
  · rfl
  · exact memByte_wroteOutput_outside ha

/-- An output that fits in DST_CAP is at DST_ADDR when its command completes, and its length in DST_LEN. -/
theorem complete_wroteOutput (h : out.length ≤ s.dstCap.toNat) :
    (complete (wroteOutput s out)).dstLen.toNat = out.length ∧
      (complete (wroteOutput s out)).memRead s.dstAddr.toNat out.length = out :=
  ⟨dstLen_wroteOutput h, memRead_wroteOutput s out⟩

/-- The bytes TENC writes for a raster (40_tile_grid.md R110). -/
def Raster.encoded (r : Raster) : List Byte := encodeGrid r.samples r.wt.toNat r.ht.toNat r.variant r.order

theorem Raster.encoded_length (r : Raster) : r.encoded.length = r.wt.toNat * r.ht.toNat * bytesPerTile r.variant :=
  encodeGrid_length ..

/-- TENC ends in an error, or the bank is valid and its encoding is written. -/
theorem tenc_end {sb : Nat} (h : exec (.tenc sb) s = .next t) :
    Raised s t ∨ ∃ r, s.raster sb = some r ∧ t = complete (wroteOutput s r.encoded) :=
  (execTenc_cases h).imp_right fun ⟨r, hr, _, _, ht⟩ => ⟨r, hr, ht⟩

theorem tenc_ok {sb : Nat} {r : Raster} (hr : s.raster sb = some r)
    (hm : s.dstAddr.toNat + s.dstCap.toNat ≤ s.cfg.memSize) (hl : r.encoded.length ≤ s.dstCap.toNat) :
    exec (.tenc sb) s = .next (complete (wroteOutput s r.encoded)) := by
  rw [exec, execTenc, withRaster_ok hr, withBuffer_ok hm]
  exact emit_ok hl

/-- Settles O21: TENC ends in an error or with the encoding of its bank written, whose length is WT*HT*BPT. -/
theorem encodeFrame : Obligations.EncodeFrame := by
  intro sb s t h
  have he := tenc_end h
  obtain ⟨hrest, herr, hok⟩ := output_frame (he.imp_right fun ⟨r, _, ht⟩ => ⟨r.encoded, ht⟩)
  refine ⟨hrest, herr, hok, fun r hr a ha => ?_⟩
  have hend : Raised s t ∨ t = complete (wroteOutput s r.encoded) := by
    refine he.imp_right fun ⟨r', hr', ht⟩ => ?_
    obtain rfl : r' = r := Option.some.inj (hr'.symm.trans hr)
    exact ht
  exact output_memByte_outside hend (r.encoded_length ▸ ha)

/-- Settles O25: with every check passed, TENC writes the encoding, whose length is WT*HT*BPT. -/
theorem encodeWritesTheTiles : Obligations.EncodeWritesTheTiles := by
  intro sb s r hr hm hl
  rw [← r.encoded_length] at hl ⊢
  obtain ⟨hlen, hread⟩ := complete_wroteOutput hl
  exact ⟨_, tenc_ok hr hm hl, rfl, rfl, rfl, hlen, hread⟩

/-- LZC.A and LZC.B are one command with the stream format as its parameter (44_lzss.md R204 to R206). -/
theorem exec_lzc {i : Instr} {v : LzVariant} (hi : (i = .lzcA ∧ v = .a) ∨ (i = .lzcB ∧ v = .b)) (s : State) :
    exec i s = lzc v s := by
  obtain ⟨rfl, rfl⟩ | ⟨rfl, rfl⟩ := hi <;> rfl

/-- LZC ends in an error, or its stream is written. -/
theorem lzc_end {v : LzVariant} (h : lzc v s = .next t) :
    Raised s t ∨ t = complete (wroteOutput s (s.compressed v)) :=
  (lzc_cases h).imp_right fun ⟨_, _, _, _, ht⟩ => ht

theorem lzc_ok {v : LzVariant} (hs : s.srcAddr.toNat + s.srcLen.toNat ≤ s.cfg.memSize)
    (hd : s.dstAddr.toNat + s.dstCap.toNat ≤ s.cfg.memSize) (ho : ¬ s.buffersOverlap)
    (hl : (s.compressed v).length ≤ s.dstCap.toNat) :
    lzc v s = .next (complete (wroteOutput s (s.compressed v))) := by
  rw [lzc, withBuffer_ok hs, withBuffer_ok hd, if_neg ho]
  exact emit_ok hl

/-- Settles O22: LZC ends in an error or with its stream written. -/
theorem compressFrame : Obligations.CompressFrame := by
  intro i v s t hi h
  have he := lzc_end ((exec_lzc hi s).symm.trans h)
  obtain ⟨hrest, herr, hok⟩ := output_frame (he.imp_right fun ht => ⟨_, ht⟩)
  exact ⟨hrest, herr, hok, fun a ha => output_memByte_outside he ha⟩

/-- Settles O33: ranges of which one is empty, or that lie one after the other, do not overlap (R73). -/
theorem compressWritesTheStream : Obligations.CompressWritesTheStream := by
  intro i v s hi hs hd hsep hl
  have ho : ¬ s.buffersOverlap := by
    rw [State.buffersOverlap]
    omega
  obtain ⟨hlen, hread⟩ := complete_wroteOutput hl
  exact ⟨_, (exec_lzc hi s).trans (lzc_ok hs hd ho hl), rfl, rfl, rfl, hlen, hread⟩

/-! ### The host's accesses to MEM -/

/-- A host access to bytes of MEM that exist, while BUSY = 0, takes place. -/
theorem atMem_ok {a n : Nat} {k : Result} (hb : s.busy = false) (hm : a + n ≤ s.cfg.memSize) : atMem a n s k = k := by
  rw [atMem, hb, if_neg Bool.false_ne_true, if_pos (.inr hm)]

theorem leByte_zero_toNat (v : Nat) : (leByte v 0).toNat = v % 256 := by
  rw [leByte, Nat.mul_zero, Nat.shiftRight_zero, BitVec.toNat_ofNat]

/-- Byte `i + 1` of a value is byte `i` of the value without its low byte. -/
theorem leByte_succ (v i : Nat) : leByte v (i + 1) = leByte (v / 256) i := by
  rw [leByte, leByte, Nat.mul_succ, Nat.add_comm, Nat.shiftRight_add, Nat.shiftRight_eq_div_pow v 8]

theorem leBytes_succ (k v : Nat) : leBytes (k + 1) v = leByte v 0 :: leBytes k (v / 256) := by
  simp [leBytes, List.range_succ_eq_map, Function.comp_def, leByte_succ]

/-- Little-endian bytes spell their value, cut to their number (R62). -/
theorem leValue_leBytes (k v : Nat) : leValue (leBytes k v) = v % 256 ^ k := by
  induction k generalizing v with
  | zero => exact (Nat.mod_one v).symm
  | succ k ih => rw [leBytes_succ, leValue, ih, leByte_zero_toNat, Nat.pow_succ', Nat.mod_mul]

/-- Settles O59: an access inside MEM takes place, and a write of bytes reads back and leaves the others. -/
theorem hostReadsAndWritesMemory : Obligations.HostReadsAndWritesMemory := by
  refine ⟨fun s a bs rest hb hh hm => ?_, fun s a n rest hb hh hm => ?_, leValue_leBytes⟩
  · refine ⟨State.memWrite { s with host := rest } a.toNat bs, ?_, rfl, memRead_memWrite _ _ _,
      fun x hx => memByte_memWrite_outside hx⟩
    exact (step_act hh).trans (atMem_ok hb hm)
  · exact (step_act hh).trans (atMem_ok hb hm)

/-! ### Where the host port stops -/

/-- An access that does not itself refuse its offset is refused so exactly when there is no register (R63). -/
theorem atRegister_refuses_iff {off : Nat} {k : Reg → Result} (hk : ∀ r, k r ≠ .refused .registerOffset) :
    atRegister off k = .refused .registerOffset ↔ off % 4 ≠ 0 ∨ 0xFC < off := by
  rw [← regAt_eq_none, atRegister]
  cases regAt off with
  | none => exact iff_of_true rfl rfl
  | some r => exact iff_of_false (hk r) nofun

theorem Ends.ne_refused {o : Result} {x : Refusal} (h : Ends o) : o ≠ .refused x := by
  obtain ⟨t, rfl⟩ := h
  exact nofun

/-- While BUSY = 0 every register write is answered by a next state. -/
theorem writeReg_ends (r : Reg) (v : Word) (s : State) : Ends (writeReg r v s) := by
  cases r with
  | cmd => exact runCommand_ends v s
  | _ => exact ⟨_, rfl⟩

/-- While BUSY = 1 the only refusal of a register write is the one for BUSY (log 7). -/
theorem writeRegBusy_ne_registerOffset (r : Reg) (v : Word) (s : State) :
    writeRegBusy r v s ≠ .refused .registerOffset := by
  cases r with
  | ctrl => rw [writeRegBusy]; split <;> exact nofun
  | _ => exact nofun

theorem hostAct_writeReg_refuses_iff (off : Nat) (v : Word) (s : State) :
    hostAct (.writeReg off v) s = .refused .registerOffset ↔ off % 4 ≠ 0 ∨ 0xFC < off := by
  refine atRegister_refuses_iff fun r => ?_
  split
  · exact writeRegBusy_ne_registerOffset r v s
  · exact (writeReg_ends r v s).ne_refused

theorem hostAct_readReg_refuses_iff (off : Nat) (s : State) :
    hostAct (.readReg off) s = .refused .registerOffset ↔ off % 4 ≠ 0 ∨ 0xFC < off := by
  refine atRegister_refuses_iff fun r => ?_
  split <;> exact nofun

/-- Settles O60: only the lookup of the register refuses an offset, and an access past the end of MEM faults. -/
theorem hostPortStops : Obligations.HostPortStops := by
  refine ⟨fun s off v rest hh => ?_, fun s a bs rest hb hh hn hm => ?_, fun s a n rest hb hh hn hm => ?_⟩
  · obtain hh | hh := hh
    · rw [step_act hh, hostAct_writeReg_refuses_iff]
    · rw [step_act hh, hostAct_readReg_refuses_iff]
  · exact (step_act hh).trans (atMem_fault hb (List.length_pos_iff.mpr hn) hm)
  · exact (step_act hh).trans (atMem_fault hb hn hm)

end Sys2Proof.Machine
end

section
/-! The decoder and the encoder (30_encoding.md R81 to R89). A word selects at most one row of the opcode map, so decoding
is building the command of the word's row. Encoding a command that a row builds gives the row's pattern with the word's
bits where the row is free, and a row reads its command's fields back from the command word: decode and encode are
inverse. -/

namespace Sys2Proof

variable {w : Word} {i : Instr}

/-! ### The row of a word (R86) -/

/-- Two rows that select one word ask for the same bits where both masks are set. -/
theorem OpRow.patterns_meet {r q : OpRow} (hr : r.selects w = true) (hq : q.selects w = true) :
    r.pattern &&& q.mask = q.pattern &&& r.mask := by
  rw [← (r.selects_iff w).mp hr, ← (q.selects_iff w).mp hq, BitVec.and_assoc, BitVec.and_assoc, BitVec.and_comm r.mask]

/-- Any two rows of the opcode map differ in a bit that both fix. -/
theorem opRows_disjoint : ∀ k l : Fin opRows.length,
    opRows[k].pattern &&& opRows[l].mask = opRows[l].pattern &&& opRows[k].mask → k = l := by
  decide

/-- Settles O4: a bit that two rows fix differently has one value in the word. -/
theorem noWordSelectsTwoRows : Obligations.NoWordSelectsTwoRows :=
  fun _ k l hk hl => opRows_disjoint k l (OpRow.patterns_meet hk hl)

/-- Decoding a word is building the command of the row that selects it. -/
theorem decode_eq_ok_iff :
    decode w = .ok i ↔ ∃ k : Fin opRows.length, opRows[k].selects w = true ∧ opRows[k].build w = i := by
  rw [decode]
  cases hf : opRows.find? fun r => r.selects w with
  | none =>
    have hn (k : Fin opRows.length) : ¬ opRows[k].selects w = true :=
      List.find?_eq_none.mp hf _ (List.getElem_mem k.isLt)
    exact iff_of_false nofun fun ⟨k, hk, _⟩ => hn k hk
  | some r =>
    have hr : r.selects w = true := List.find?_some (p := fun q : OpRow => q.selects w) hf
    obtain ⟨l, hl, rfl⟩ := List.getElem_of_mem (List.mem_of_find?_eq_some hf)
    refine ⟨fun h => ⟨⟨l, hl⟩, hr, Except.ok.inj h⟩, fun ⟨k, hk, hi⟩ => ?_⟩
    obtain rfl : k = ⟨l, hl⟩ := noWordSelectsTwoRows w k ⟨l, hl⟩ hk hr
    exact congrArg Except.ok hi

/-! ### The fields of a word, put back in their places (R83) -/

/-- A field put back in its place is the word under the field's mask. -/
theorem field_shift_eq_and {m : Word} (w : Word) (lo n : Nat) (hn : n ≤ 4)
    (hm : ∀ k : Fin 32, m.getLsbD k = decide (lo ≤ k.val ∧ k.val < lo + n)) :
    BitVec.ofNat 32 (field w lo n) <<< lo = w &&& m := by
  refine BitVec.eq_of_getLsbD_eq fun k hk => ?_
  rw [field_shift_bit w lo n k hk hn, BitVec.getLsbD_and, hm ⟨k, hk⟩, Bool.and_comm]

theorem fieldSB_shift (w : Word) : BitVec.ofNat 32 (fieldSB w) <<< 8 = w &&& 0x00000F00 :=
  field_shift_eq_and w 8 4 (by decide) (by decide)

theorem fieldDB_shift (w : Word) : BitVec.ofNat 32 (fieldDB w) <<< 12 = w &&& 0x0000F000 :=
  field_shift_eq_and w 12 4 (by decide) (by decide)

theorem fieldC_shift (w : Word) : BitVec.ofNat 32 (fieldC w).bit <<< 17 = w &&& 0x00020000 := by
  rw [fieldC_bit]
  exact field_shift_eq_and w 17 1 (by decide) (by decide)

theorem fieldSB_fits (w : Word) : bankFits (fieldSB w) := field_lt w 8 4

theorem fieldDB_fits (w : Word) : bankFits (fieldDB w) := field_lt w 12 4

/-! ### Encoding the command that a row builds -/

/-- Format T is its fixed part (OP, V, PL) with the three fields that a row can leave free (R89). -/
theorem formatT_eq (op sb db v c pl : Nat) :
    formatT op sb db v c pl = (BitVec.ofNat 32 op ||| BitVec.ofNat 32 v <<< 16 ||| BitVec.ofNat 32 pl <<< 18) |||
      (BitVec.ofNat 32 sb <<< 8 ||| BitVec.ofNat 32 db <<< 12 ||| BitVec.ofNat 32 c <<< 17) := by
  ext k hk
  simp only [formatT, BitVec.getElem_or]
  ac_rfl

/-- In every row the fixed part of the format is the row's pattern, and the masks of the free fields add up to the
complement of the row's mask. -/
theorem encode_build (k : Fin opRows.length) (w : Word) :
    encode (opRows[k].build w) = opRows[k].pattern ||| (w &&& ~~~opRows[k].mask) := by
  fin_cases k <;>
    simp [opRows, encode, formatT_eq, formatL, fieldSB_shift, fieldDB_shift, fieldC_shift, ← BitVec.and_or_distrib_left]

theorem build_wf (k : Fin opRows.length) (w : Word) : (opRows[k].build w).wf = true := by
  fin_cases k <;> simp [opRows, Instr.wf, fieldSB_fits w, fieldDB_fits w]

/-- Settles O3: the row fixes the bits under its mask, and the command keeps the others. -/
theorem decodedWordIsTheCommandWord : Obligations.DecodedWordIsTheCommandWord := by
  intro w i h
  obtain ⟨k, hk, rfl⟩ := decode_eq_ok_iff.mp h
  refine ⟨build_wf k w, ?_⟩
  calc encode (opRows[k].build w)
    _ = (w &&& opRows[k].mask) ||| (w &&& ~~~opRows[k].mask) := by
      rw [encode_build, (opRows[k].selects_iff w).mp hk]
    _ = w := by rw [← BitVec.and_or_distrib_left, BitVec.or_not_self, BitVec.and_allOnes]

theorem pattern_and_mask : ∀ k : Fin opRows.length, opRows[k].pattern &&& opRows[k].mask = opRows[k].pattern := by
  decide

/-- A row selects the command word of every command it builds. -/
theorem selects_encode_build (k : Fin opRows.length) (w : Word) :
    opRows[k].selects (encode (opRows[k].build w)) = true := by
  rw [OpRow.selects_iff, encode_build, BitVec.and_or_distrib_right, pattern_and_mask, BitVec.and_assoc]
  simp

/-! ### Reading the fields of a command word (R81, R89) -/

theorem field_eq (w : Word) (lo n : Nat) : field w lo n = w.toNat / 2 ^ lo % 2 ^ n := by
  rw [field, BitVec.extractLsb'_toNat, Nat.shiftRight_eq_div_pow]

/-- A field laid above the bits of a word is added to it. -/
theorem toNat_or_shiftLeft {a : Word} {n x lo : Nat} (ha : a.toNat = n) (hn : n < 2 ^ lo) (hx : x * 2 ^ lo < 2 ^ 32) :
    (a ||| BitVec.ofNat 32 x <<< lo).toNat = n + x * 2 ^ lo := by
  have hle : x ≤ x * 2 ^ lo := Nat.le_mul_of_pos_right x (Nat.two_pow_pos lo)
  have hs : (BitVec.ofNat 32 x <<< lo).toNat = x <<< lo := by
    rw [BitVec.toNat_shiftLeft, BitVec.toNat_ofNat, Nat.mod_eq_of_lt (hle.trans_lt hx), Nat.shiftLeft_eq,
      Nat.mod_eq_of_lt hx]
  rw [BitVec.toNat_or, ha, hs, Nat.or_comm, Machine.shiftLeft_or hn, Nat.add_comm]

theorem Traversal.bit_lt (c : Traversal) : c.bit < 2 := by cases c <;> decide

theorem Traversal.bit_inj : ∀ {c d : Traversal}, c.bit = d.bit → c = d
  | .rowMajor, .rowMajor, _ => rfl
  | .colMajor, .colMajor, _ => rfl

section

variable {op sb db v c pl : Nat} (hop : op < 2 ^ 8) (hsb : bankFits sb) (hdb : bankFits db) (hv : v < 2) (hpl : pl < 4)
include hop hsb hdb hv hpl

/-- When every field fits, Format T is the sum of its fields. -/
theorem formatT_toNat (hc : c < 2) : (formatT op sb db v c pl).toNat =
    op + sb * 2 ^ 8 + db * 2 ^ 12 + v * 2 ^ 16 + c * 2 ^ 17 + pl * 2 ^ 18 := by
  have h0 : (BitVec.ofNat 32 op).toNat = op := Nat.mod_eq_of_lt (hop.trans (by decide))
  have h1 := toNat_or_shiftLeft (x := sb) (lo := 8) h0 hop (by omega)
  have h2 := toNat_or_shiftLeft (x := db) (lo := 12) h1 (by omega) (by omega)
  have h3 := toNat_or_shiftLeft (x := v) (lo := 16) h2 (by omega) (by omega)
  have h4 := toNat_or_shiftLeft (x := c) (lo := 17) h3 (by omega) (by omega)
  exact toNat_or_shiftLeft h4 (by omega) (by omega)

theorem fieldSB_formatT (hc : c < 2) : fieldSB (formatT op sb db v c pl) = sb := by
  rw [fieldSB, field_eq, formatT_toNat hop hsb hdb hv hpl hc]
  omega

theorem fieldDB_formatT (hc : c < 2) : fieldDB (formatT op sb db v c pl) = db := by
  rw [fieldDB, field_eq, formatT_toNat hop hsb hdb hv hpl hc]
  omega

theorem fieldC_formatT (c : Traversal) : fieldC (formatT op sb db v c.bit pl) = c := by
  have hc := c.bit_lt
  refine Traversal.bit_inj ?_
  rw [fieldC_bit, field_eq, formatT_toNat hop hsb hdb hv hpl hc]
  omega

end

/-! ### The row of a command -/

/-- The place of a command's row in the opcode map: the constructors of `Instr` stand in the table's order. -/
def Instr.rowIndex (i : Instr) : Fin opRows.length := ⟨i.ctorIdx, by cases i <;> simp [opRows, Instr.ctorIdx]⟩

/-- A command's row reads its fields back from the command word: DB and C, SB, both banks, DB, or none. -/
theorem build_encode (h : i.wf = true) : opRows[i.rowIndex].build (encode i) = i := by
  cases i with
  | tdecP4 db c | tdecP2 db c | tnewP4 db c | tnewP2 db c =>
    have hdb : bankFits db := of_decide_eq_true h
    simp [opRows, Instr.rowIndex, Instr.ctorIdx, encode, fieldDB_formatT, fieldC_formatT, c.bit_lt, hdb]
  | tenc sb | tbpl1 sb | tbpl2 sb | tpxg sb | tpxgB1 sb | tpxgB2 sb =>
    have hsb : bankFits sb := of_decide_eq_true h
    simp [opRows, Instr.rowIndex, Instr.ctorIdx, encode, fieldSB_formatT, hsb]
  | txrng sb db | txrct sb db | txfrm sb db =>
    obtain ⟨hsb, hdb⟩ : bankFits sb ∧ bankFits db := of_decide_eq_true h
    simp [opRows, Instr.rowIndex, Instr.ctorIdx, encode, fieldSB_formatT, fieldDB_formatT, hsb, hdb]
  | tpxs db =>
    have hdb : bankFits db := of_decide_eq_true h
    simp [opRows, Instr.rowIndex, Instr.ctorIdx, encode, fieldDB_formatT, hdb]
  | lzcA | lzcB => rfl

theorem selects_encode (h : i.wf = true) : opRows[i.rowIndex].selects (encode i) = true := by
  simpa only [build_encode h] using selects_encode_build i.rowIndex (encode i)

/-- Settles O2: the command's row selects its word and builds the command again. -/
theorem encodedCommandDecodesToItself : Obligations.EncodedCommandDecodesToItself :=
  fun i h => decode_eq_ok_iff.mpr ⟨i.rowIndex, selects_encode h, build_encode h⟩

/-- Settles O1: each word is compared with the sixteen rows. -/
theorem specWordsDecode : Obligations.SpecWordsDecode := by
  unfold Obligations.SpecWordsDecode
  decide

end Sys2Proof
end

section
/-! The two tile formats are each a bijection between packed tiles and tiles of legal samples (41_packed4bpp.md R132,
42_planar2bpp.md R142). Each direction comes down to one fact about a single byte or sample, checked on all of them. -/

namespace Sys2Proof.Machine

variable {v : Variant} {t : List Byte} {tile : Nat → Nat → Sample} {r c : Nat}

/-! ### Packed4bpp: two nibbles a byte -/

/-- A byte is its two nibbles, the high one shifted into its place. -/
theorem nibbles_join : ∀ b : Byte, (b.extractLsb' 4 4).setWidth 8 <<< 4 ||| (b.extractLsb' 0 4).setWidth 8 = b := by
  decide

/-- Two nibbles joined to a byte are its low and its high nibble. -/
theorem nibbles_split : ∀ hi lo : Sample,
    (hi.setWidth 8 <<< 4 ||| lo.setWidth 8 : Byte).extractLsb' 0 4 = lo ∧
      (hi.setWidth 8 <<< 4 ||| lo.setWidth 8 : Byte).extractLsb' 4 4 = hi := by
  decide

theorem unpack4_left (t : List Byte) (r k : Nat) : unpack4 t r (2 * k) = (t.getD (4 * r + k) 0).extractLsb' 0 4 := by
  simp [unpack4]

theorem unpack4_right (t : List Byte) (r k : Nat) :
    unpack4 t r (2 * k + 1) = (t.getD (4 * r + k) 0).extractLsb' 4 4 := by
  simp [unpack4, Nat.mul_add_div]

theorem unpack4_pack4 (hr : r < 8) (hc : c < 8) : unpack4 (pack4 tile) r c = tile r c := by
  obtain ⟨k, rfl | rfl⟩ := Nat.even_or_odd' c
  · rw [unpack4_left, pack4_getD tile hr (by omega)]
    exact (nibbles_split _ _).left
  · rw [unpack4_right, pack4_getD tile hr (by omega)]
    exact (nibbles_split _ _).right

theorem pack4_unpack4 (ht : t.length = 32) : pack4 (unpack4 t) = t := by
  refine List.ext_getElem (by rw [pack4_length, ht]) fun i h₁ h₂ => ?_
  have hi : 4 * (i / 4) + i % 4 = i := Nat.div_add_mod i 4
  have hb := pack4_getD (unpack4 t) (r := i / 4) (k := i % 4) (by omega) (by omega)
  rw [unpack4_left, unpack4_right, nibbles_join, hi, List.getD_eq_getElem _ _ h₁, List.getD_eq_getElem _ _ h₂] at hb
  exact hb

/-! ### Planar2bpp: a low and a high plane byte a row -/

/-- A planar sample is its two bits, the high one shifted into its place. -/
theorem planarBits_join : ∀ s : Sample, s.toNat < 4 →
    ((s.extractLsb' 1 1).setWidth 8 <<< 1 ||| (s.extractLsb' 0 1).setWidth 8 : Byte).setWidth 4 = s := by
  decide

theorem and_one_eq : ∀ b : Byte, b &&& 1 = (b.extractLsb' 0 1).setWidth 8 := by decide

/-- Two bits joined to a sample are its low and its high bit. -/
theorem planarBits_split : ∀ hi lo : BitVec 1,
    (((hi.setWidth 8 <<< 1 ||| lo.setWidth 8 : Byte).setWidth 4 : Sample).extractLsb' 0 1 = lo) ∧
      ((hi.setWidth 8 <<< 1 ||| lo.setWidth 8 : Byte).setWidth 4 : Sample).extractLsb' 1 1 = hi := by
  decide

/-- The two bits of a planar sample are those of its row's two bytes. -/
theorem unpack2_bits (t : List Byte) (r c : Nat) :
    ((unpack2 t r c).extractLsb' 0 1).setWidth 8 = t.getD (2 * r) 0 >>> (7 - c) &&& 1 ∧
      ((unpack2 t r c).extractLsb' 1 1).setWidth 8 = t.getD (2 * r + 1) 0 >>> (7 - c) &&& 1 := by
  simp only [unpack2, and_one_eq, planarBits_split, and_self]

theorem planeByte_bit (tile : Nat → Nat → Sample) (r n : Nat) (hc : c < 8) :
    planeByte tile r n >>> (7 - c) &&& 1 = ((tile r c).extractLsb' n 1).setWidth 8 :=
  bit_foldl (fun c => (tile r c).extractLsb' n 1) hc

theorem unpack2_pack2 (h : (tile r c).toNat < 4) (hr : r < 8) (hc : c < 8) : unpack2 (pack2 tile) r c = tile r c := by
  obtain ⟨hlow, hhigh⟩ := pack2_getD tile hr
  rw [unpack2, hlow, hhigh, planeByte_bit _ _ _ hc, planeByte_bit _ _ _ hc]
  exact planarBits_join _ h

/-- A plane byte whose bits are taken from a byte is that byte. -/
theorem planeByte_eq {b : Byte} {n : Nat}
    (h : ∀ c < 8, ((tile r c).extractLsb' n 1).setWidth 8 = b >>> (7 - c) &&& 1) : planeByte tile r n = b := by
  rw [← foldl_bits b, planeByte]
  refine List.foldl_ext _ _ _ fun acc c hc => ?_
  rw [h c (List.mem_range.mp hc)]

theorem pack2_unpack2 (ht : t.length = 16) : pack2 (unpack2 t) = t := by
  have hrow (r : Nat) (hr : r < 8) : (pack2 (unpack2 t)).getD (2 * r) 0 = t.getD (2 * r) 0 ∧
      (pack2 (unpack2 t)).getD (2 * r + 1) 0 = t.getD (2 * r + 1) 0 := by
    obtain ⟨hlow, hhigh⟩ := pack2_getD (unpack2 t) hr
    exact ⟨hlow.trans (planeByte_eq fun c _ => (unpack2_bits t r c).left),
      hhigh.trans (planeByte_eq fun c _ => (unpack2_bits t r c).right)⟩
  refine List.ext_getElem (by rw [pack2_length, ht]) fun i h₁ h₂ => ?_
  rw [← List.getD_eq_getElem _ 0 h₁, ← List.getD_eq_getElem _ 0 h₂]
  obtain ⟨r, rfl | rfl⟩ := Nat.even_or_odd' i
  · exact (hrow r (by omega)).left
  · exact (hrow r (by omega)).right

/-! ### Both formats -/

/-- Packing what was unpacked gives the tile's bytes back. -/
theorem pack_unpack (ht : t.length = bytesPerTile v) : pack v (unpack v t) = t := by
  cases v with
  | packed4bpp => exact pack4_unpack4 ht
  | planar2bpp => exact pack2_unpack2 ht

/-- Unpacking what was packed gives every legal sample back. -/
theorem unpack_pack (h : (tile r c).toNat < sampleLimit v) (hr : r < 8) (hc : c < 8) :
    unpack v (pack v tile) r c = tile r c := by
  cases v with
  | packed4bpp => exact unpack4_pack4 hr hc
  | planar2bpp => exact unpack2_pack2 h hr hc

end Sys2Proof.Machine
end

section
/-! The tile grid (40_tile_grid.md R100 to R111): the walk over the tiles, and decoding and encoding as two views of it.
What each function does to one tile is said once, `decodeGrid_tile` and `tileBytes_encodeGrid`; everything else about
them follows tile by tile. -/

namespace Sys2Proof.Machine

variable {v : Variant} {c : Traversal} {b : List Byte} {g : List Sample} {wt ht t lo n : Nat}

/-! ### The walk (R100, R101) -/

/-- Settles O34: `tileIndex` and `tilePos` are inverse on the grid. -/
theorem tileWalkIsABijection : Obligations.TileWalkIsABijection := by
  intro wt ht c hw hh
  have hpos (t : Nat) (ht' : t < wt * ht) : (tilePos t wt ht c).1 < wt ∧ (tilePos t wt ht c).2 < ht ∧
      tileIndex (tilePos t wt ht c).1 (tilePos t wt ht c).2 wt ht c = t :=
    have ⟨hx, hy⟩ := tilePos_lt hw hh ht'
    ⟨hx, hy, tileIndex_tilePos t wt ht c⟩
  have hidx (x y : Nat) (hx : x < wt) (hy : y < ht) : tileIndex x y wt ht c < wt * ht ∧
      tilePos (tileIndex x y wt ht c) wt ht c = (x, y) :=
    ⟨tileIndex_lt hx hy, tilePos_tileIndex hx hy⟩
  cases c with
  | rowMajor => exact ⟨hpos, hidx⟩
  | colMajor => exact ⟨hpos, hidx⟩

/-- On one row both traversals go from left to right (43_subimage.md R163). -/
theorem tilePos_one_row (h : t < wt) : tilePos t wt 1 c = (t, 0) := by
  cases c with
  | rowMajor => rw [tilePos, Nat.mod_eq_of_lt h, Nat.div_eq_of_lt h]
  | colMajor => rw [tilePos, Nat.div_one, Nat.mod_one]

/-! ### The tiles of a buffer (R102) -/

/-- A tile ends within the bytes of `n` tiles that it is one of. -/
theorem tile_end_le (h : t < n) : t * bytesPerTile v + bytesPerTile v ≤ n * bytesPerTile v :=
  Nat.succ_mul t _ ▸ Nat.mul_le_mul_right _ h

/-- Tile `t` of a run of tiles is tile `lo + t` of the buffer. -/
theorem tileBytes_run (h : t < n) :
    tileBytes v ((b.drop (lo * bytesPerTile v)).take (n * bytesPerTile v)) t = tileBytes v b (lo + t) := by
  have hle := tile_end_le (v := v) h
  rw [tileBytes, tileBytes, List.drop_take, List.take_take, List.drop_drop, Nat.add_mul, Nat.min_eq_left (by omega)]

theorem tileBytes_take (h : t < n) : tileBytes v (b.take (n * bytesPerTile v)) t = tileBytes v b t := by
  simpa using tileBytes_run (v := v) (b := b) (lo := 0) h

theorem bytesPerTile_pos (v : Variant) : 0 < bytesPerTile v := by cases v <;> decide

/-- A whole buffer gives every tile of its grid. -/
theorem availTiles_full (h : b.length = wt * ht * bytesPerTile v) : availTiles v b.length wt ht = wt * ht := by
  rw [availTiles, h, Nat.mul_div_cancel _ (bytesPerTile_pos v), Nat.min_self]

theorem length_tileBytes (h : b.length = n * bytesPerTile v) (ht : t < n) :
    (tileBytes v b t).length = bytesPerTile v := by
  have hle := tile_end_le (v := v) ht
  rw [tileBytes, List.length_take, List.length_drop]
  omega

/-! ### Decoding (R104, R105) -/

/-- A decoded tile: the unpacked bytes if the buffer has them, else zeros. -/
theorem decodeGrid_tile {row col : Nat} (hw : 1 ≤ wt) (hh : 1 ≤ ht) (ht' : t < wt * ht) (hr : row < 8)
    (hc : col < 8) :
    (decodeGrid b wt ht v c)[(8 * (tilePos t wt ht c).2 + row) * (8 * wt) + (8 * (tilePos t wt ht c).1 + col)]? =
      some (if t < availTiles v b.length wt ht then unpack v (tileBytes v b t) row col else 0) := by
  obtain ⟨hx, hy⟩ := tilePos_lt (c := c) hw hh ht'
  have hdiv (p k : Nat) (hk : k < 8) : (8 * p + k) / 8 = p ∧ (8 * p + k) % 8 = k := by omega
  rw [decodeGrid, gridOf_getElem? _ (by omega) (by omega), (hdiv _ col hc).left, (hdiv _ col hc).right,
    (hdiv _ row hr).left, (hdiv _ row hr).right, tileIndex_tilePos]

/-- Decoding reads the available whole tiles only. -/
theorem decodeGrid_take :
    decodeGrid (b.take (availTiles v b.length wt ht * bytesPerTile v)) wt ht v c = decodeGrid b wt ht v c := by
  set a := availTiles v b.length wt ht with ha
  have hle : a ≤ b.length / bytesPerTile v := Nat.min_le_left _ _
  have hlen : (b.take (a * bytesPerTile v)).length = a * bytesPerTile v :=
    List.length_take_of_le ((Nat.mul_le_mul_right _ hle).trans (Nat.div_mul_le_self _ _))
  have havail : availTiles v (b.take (a * bytesPerTile v)).length wt ht = a := by
    rw [availTiles, hlen, Nat.mul_div_cancel _ (bytesPerTile_pos v)]
    exact Nat.min_eq_left (Nat.min_le_right _ _)
  refine gridOf_congr fun x y _ _ => ?_
  dsimp only
  rw [havail, ← ha]
  split
  · next h => rw [tileBytes_take h]
  · rfl

/-- Settles O38: each tile of the grid by `decodeGrid_tile`, and the bytes read by `decodeGrid_take`. -/
theorem decodePlacesTheAvailableTiles : Obligations.DecodePlacesTheAvailableTiles := fun b wt ht v c hw hh =>
  ⟨decodeGrid_length b wt ht v c, fun _ _ _ ht' hr hc => decodeGrid_tile hw hh ht' hr hc, decodeGrid_take⟩

/-- The tile of a decoded grid at the position of an available tile. -/
theorem gridTile_decodeGrid {row col : Nat} (hw : 1 ≤ wt) (hh : 1 ≤ ht) (ht' : t < availTiles v b.length wt ht)
    (hr : row < 8) (hc : col < 8) :
    gridTile (decodeGrid b wt ht v c) wt (tilePos t wt ht c) row col = unpack v (tileBytes v b t) row col := by
  have hlt : t < wt * ht := ht'.trans_le (Nat.min_le_right _ _)
  rw [gridTile, gridAt, List.getD_eq_getElem?_getD, decodeGrid_tile hw hh hlt hr hc, if_pos ht', Option.getD_some]

/-! ### Encoding (R106, R107) -/

/-- Tile `t` of an encoding is the packed tile at its position. -/
theorem tileBytes_encodeGrid (h : t < wt * ht) :
    tileBytes v (encodeGrid g wt ht v c) t = pack v (gridTile g wt (tilePos t wt ht c)) :=
  block_flatMap_range (fun _ => pack_length v _) h

/-- Settles O39: `tileBytes` is the run of bytes the statement cuts out. -/
theorem encodeEmitsEveryTileInOrder : Obligations.EncodeEmitsEveryTileInOrder :=
  fun _ _ _ _ _ _ h => tileBytes_encodeGrid h

/-- Settles O40: every packed tile has BPT bytes, at most 32. -/
theorem encodedLength : Obligations.EncodedLength := by
  refine ⟨⟨rfl, rfl⟩, fun g wt ht v c => ⟨encodeGrid_length g wt ht v c, fun tiles htiles => ?_⟩⟩
  have hbpt : bytesPerTile v ≤ 32 := by cases v <;> decide
  have hle : (encodeGrid g wt ht v c).length ≤ 32 * tiles := by
    rw [encodeGrid_length, Nat.mul_comm 32]
    exact Nat.mul_le_mul htiles hbpt
  exact ⟨hle, fun _ => by omega⟩

/-- A buffer that agrees with a grid tile by tile is its encoding. -/
theorem encodeGrid_eq (hl : b.length = wt * ht * bytesPerTile v)
    (h : ∀ t < wt * ht, pack v (gridTile g wt (tilePos t wt ht c)) = tileBytes v b t) : encodeGrid g wt ht v c = b :=
  calc encodeGrid g wt ht v c
    _ = (List.range (wt * ht)).flatMap (tileBytes v b) := List.flatMap_congr fun t ht' => h t (List.mem_range.mp ht')
    _ = b := flatMap_blocks _ hl

/-! ### Round trips (R111) -/

/-- Decoding an encoding gives back every grid of legal samples. -/
theorem decodeGrid_encodeGrid (hl : g.length = 8 * wt * (8 * ht)) (hg : ∀ s ∈ g, s.toNat < sampleLimit v) :
    decodeGrid (encodeGrid g wt ht v c) wt ht v c = g := by
  refine (gridOf_congr fun x y hx hy => ?_).trans (gridOf_gridAt g _ _ 0 hl)
  have hx8 : x / 8 < wt := by omega
  have hy8 : y / 8 < ht := by omega
  have hlt : tileIndex (x / 8) (y / 8) wt ht c < wt * ht := tileIndex_lt hx8 hy8
  have hcell : gridTile g wt (x / 8, y / 8) (y % 8) (x % 8) = gridAt g (8 * wt) x y 0 := by
    rw [gridTile, Nat.div_add_mod, Nat.div_add_mod]
  have hlegal : (gridTile g wt (x / 8, y / 8) (y % 8) (x % 8)).toNat < sampleLimit v := by
    rcases gridAt_mem (g := g) (w := 8 * wt) (x := x) (y := y) (d := 0) with hm | h0
    · exact hcell ▸ hg _ hm
    · rw [hcell, h0]; cases v <;> decide
  dsimp only
  rw [availTiles_full (encodeGrid_length g wt ht v c), if_pos hlt, tileBytes_encodeGrid hlt,
    tilePos_tileIndex hx8 hy8, unpack_pack hlegal (Nat.mod_lt _ (by decide)) (Nat.mod_lt _ (by decide)), hcell]

/-- Encoding a decoding gives back every buffer of whole tiles that fills the grid. -/
theorem encodeGrid_decodeGrid (hw : 1 ≤ wt) (hh : 1 ≤ ht) (hl : b.length = wt * ht * bytesPerTile v) :
    encodeGrid (decodeGrid b wt ht v c) wt ht v c = b := by
  refine encodeGrid_eq hl fun t ht' => ?_
  have havail : t < availTiles v b.length wt ht := by rwa [availTiles_full hl]
  calc pack v (gridTile (decodeGrid b wt ht v c) wt (tilePos t wt ht c))
    _ = pack v (unpack v (tileBytes v b t)) := pack_congr v fun _ _ hr hc => gridTile_decodeGrid hw hh havail hr hc
    _ = tileBytes v b t := pack_unpack (length_tileBytes hl ht')

/-- Loading a full-size palette from the staging entries gives that palette (R108). -/
theorem loadedPalette_eq {s : State} {pal : List Word} (hl : pal.length = palMax v) (hn : s.palInSize.toNat = palMax v)
    (hp : ∀ k : Fin 16, k.val < palMax v → pal[k.val]? = some s.palIn[k]) : s.loadedPalette v = pal := by
  have hlen : (s.loadedPalette v).length = palMax v := loadedPalette_length hn.le
  have h16 : palMax v ≤ 16 := by cases v <;> decide
  refine List.ext_getElem? fun k => ?_
  by_cases hk : k < palMax v
  · rw [loadedPalette_loaded (hn ▸ hk) (by omega)]
    exact (hp ⟨k, by omega⟩ hk).symm
  · rw [List.getElem?_eq_none (by omega), List.getElem?_eq_none (by omega)]

/-- Settles O41: a proper raster has legal samples and a full palette, and both directions go tile by tile. -/
theorem encodeDecodeRoundTrip : Obligations.EncodeDecodeRoundTrip :=
  ⟨fun _ _ hr => decodeGrid_encodeGrid hr.samples_len hr.samples_lt,
    fun _ _ _ hr hn hp => loadedPalette_eq hr.pal_full hn hp,
    fun _ _ _ _ _ hw hh hl => encodeGrid_decodeGrid hw hh hl⟩

/-! ### Tile ranges (43_subimage.md R162, R163) -/

/-- Settles O42: the two walks of a one-row raster are one walk. -/
theorem oneRowTraversalsCoincide : Obligations.OneRowTraversalsCoincide := by
  refine ⟨fun t wt c h => tilePos_one_row h, fun g wt v c d => ?_, fun r c lo n h1 hn => ?_⟩
  · refine List.flatMap_congr fun t ht' => ?_
    have hlt : t < wt := by simpa using ht'
    rw [tilePos_one_row hlt, tilePos_one_row hlt]
  · refine gridOf_congr fun x y hx _ => ?_
    have hlt : lo + x / 8 < r.wt.toNat := by omega
    have hone : r.ht.toNat = 1 := congrArg BitVec.toNat h1
    dsimp only
    rw [hone, tilePos_one_row hlt, tilePos_one_row hlt]
    rfl

/-- The tile of an extracted range at position `t` is the source's tile of index `lo + t`. -/
theorem gridTile_rangeSamples {r : Raster} {row col : Nat} (h : t < n) (hr : row < 8) (hc : col < 8) :
    gridTile (r.rangeSamples lo n) n (t, 0) row col =
      gridTile r.samples r.wt.toNat (tilePos (lo + t) r.wt.toNat r.ht.toNat r.order) row col := by
  have hx : (8 * t + col) / 8 = t ∧ (8 * t + col) % 8 = col := by omega
  rw [Raster.rangeSamples, gridTile_gridOf (h := 1) h (by omega) hr hc, hx.left, hx.right, Nat.mul_zero, Nat.zero_add]
  rfl

/-- Settles O44: tile `t` of the run of bytes is tile `lo + t` of the source's encoding. -/
theorem tileRangeIsARunOfTheBuffer : Obligations.TileRangeIsARunOfTheBuffer := by
  intro r lo hi c _ _ hlo hhi
  obtain ⟨n, rfl⟩ := Nat.exists_eq_add_of_le hlo.le
  rw [Nat.add_sub_cancel_left]
  have hle : lo * bytesPerTile r.variant + n * bytesPerTile r.variant ≤
      r.wt.toNat * r.ht.toNat * bytesPerTile r.variant := by
    rw [← Nat.add_mul]
    exact Nat.mul_le_mul_right _ hhi
  refine encodeGrid_eq ?_ fun t ht' => ?_
  · rw [List.length_take, List.length_drop, encodeGrid_length, Nat.mul_one]
    omega
  · have hlt : t < n := by simpa using ht'
    rw [tileBytes_run hlt, tileBytes_encodeGrid (by omega), tilePos_one_row hlt]
    exact pack_congr _ fun _ _ hr hc => gridTile_rangeSamples hlt hr hc

end Sys2Proof.Machine
end

section
/-! TNEW, TPXG and TPXS (40_tile_grid.md R112 to R116): what each leaves when its checks pass, and the frame of TPXG. -/

namespace Sys2Proof.Machine

variable {s : State} {r : Raster} {sb db : Nat}

theorem tnew_ok {v : Variant} {c : Traversal} (hd : db < s.nbanks) (hp : s.palInSize.toNat ≤ palMax v)
    (hw : 1 ≤ s.arg0.toNat) (hh : 1 ≤ s.arg1.toNat) (hc : s.arg0.toNat * s.arg1.toNat ≤ s.cfg.bankTiles) :
    tnew v db c s = .next (complete (buildFrom [] v c db (s.loadedPalette v) s.arg0 s.arg1 s)) := by
  rw [tnew, withDest_ok hd, withPalette_ok hp, withGeometry_ok hw hh hc, finish]

/-- Settles O24: with every check passed, TNEW builds the bank from an empty buffer, which decodes to zeros. -/
theorem newBuildsABlankBank : Obligations.NewBuildsABlankBank := by
  refine ⟨⟨rfl, rfl⟩, fun i v db c s hi hd hp hw hh hc => ⟨s.loadedPalette v, ?_, loadedPalette_length hp,
    fun k hk => loadedPalette_loaded hk k.isLt, fun k hs hk => loadedPalette_padding hp hs hk⟩⟩
  rw [← decodeGrid_nil _ _ v c]
  obtain ⟨rfl, rfl⟩ | ⟨rfl, rfl⟩ := hi
  · exact tnew_ok hd hp hw hh hc
  · exact tnew_ok hd hp hw hh hc

theorem execTpxg_ok (hr : s.raster sb = some r) (hx : s.arg0.toNat < 8 * r.wt.toNat)
    (hy : s.arg1.toNat < 8 * r.ht.toNat) :
    execTpxg sb s = .next (complete { s with result := (r.sample s.arg0.toNat s.arg1.toNat).setWidth 32 }) := by
  rw [execTpxg, withRaster_ok hr, withPixel_ok hx hy, finish]

/-- Settles O30: with every check passed, TPXG reads the sample, which is the cell the statement names. -/
theorem pixelGetReturnsTheSample : Obligations.PixelGetReturnsTheSample := by
  intro sb s r v hr hx hy hv
  have hs : r.sample s.arg0.toNat s.arg1.toNat = v := by
    rw [Raster.sample, gridAt, List.getD_eq_getElem?_getD, hv, Option.getD_some]
  rw [← hs]
  exact execTpxg_ok hr hx hy

/-- Settles O20: TPXG ends in an error, or with RESULT written and nothing else. -/
theorem pixelGetFrame : Obligations.PixelGetFrame := by
  intro sb s t h
  obtain ⟨e, i0, i1, -, rfl⟩ | ⟨r, -, -, -, rfl⟩ := execTpxg_cases h
  · exact ⟨rfl, fun _ => rfl, nofun⟩
  · exact ⟨rfl, nofun, fun _ => ⟨rfl, rfl, rfl⟩⟩

theorem execTpxs_ok (hr : s.raster db = some r) (hx : s.arg0.toNat < 8 * r.wt.toNat)
    (hy : s.arg1.toNat < 8 * r.ht.toNat) (hv : s.arg2.toNat < sampleLimit r.variant) :
    execTpxs db s = .next (complete
      (s.setRaster db (r.setSample s.arg0.toNat s.arg1.toNat (s.arg2.setWidth 4)).dropPlanes)) := by
  rw [execTpxs, withRaster_ok hr, withPixel_ok hx hy, if_neg (Nat.not_le.mpr hv), finish]

section

variable {x y x' y' : Nat} {v : Sample} (hl : r.samples.length = 8 * r.wt.toNat * (8 * r.ht.toNat))
  (hx : x < 8 * r.wt.toNat) (hy : y < 8 * r.ht.toNat)
include hl hx hy

theorem sample_setSample_same : (r.setSample x y v).sample x y = v :=
  (gridAt_set hl hx hy hx).trans (if_pos ⟨rfl, rfl⟩)

theorem sample_setSample_other (hx' : x' < 8 * r.wt.toNat) (hne : (x', y') ≠ (x, y)) :
    (r.setSample x y v).sample x' y' = r.sample x' y' :=
  (gridAt_set hl hx hy hx').trans (if_neg fun ⟨h₁, h₂⟩ => hne (Prod.ext h₁ h₂))

end

/-- A legal sample value fits the cell. -/
theorem toNat_setWidth_sample {v : Variant} {w : Word} (h : w.toNat < sampleLimit v) :
    (w.setWidth 4 : Sample).toNat = w.toNat := by
  have h16 : sampleLimit v ≤ 16 := by cases v <;> decide
  rw [BitVec.toNat_setWidth]
  exact Nat.mod_eq_of_lt (h.trans_le h16)

/-- Settles O32: with every check passed, TPXS leaves the raster with one sample set and no plane. -/
theorem pixelSetWritesOneSample : Obligations.PixelSetWritesOneSample := by
  refine ⟨⟨rfl, rfl⟩, fun db s r hr hok hx hy hv => ⟨_, execTpxs_ok hr hx hy hv, rfl, ?_, fun x y hx' _ hne =>
    sample_setSample_other hok.samples_len hx hy hx' hne⟩⟩
  rw [← toNat_setWidth_sample hv]
  exact congrArg BitVec.toNat (sample_setSample_same hok.samples_len hx hy)

end Sys2Proof.Machine
end

section
/-! The packed and the planar tile format read in arithmetic form, and the packed round trip (41_packed4bpp.md R130,
R132, 42_planar2bpp.md R140). -/

namespace Sys2Proof.Machine

variable {t : List Byte} {r c : Nat}

theorem lowNibble_toNat (b : Byte) : (b.extractLsb' 0 4).toNat = b.toNat % 16 := by
  simp [BitVec.extractLsb'_toNat]

theorem highNibble_toNat (b : Byte) : (b.extractLsb' 4 4).toNat = b.toNat / 16 := by
  have hb : b.toNat / 16 < 16 := Nat.div_lt_of_lt_mul b.isLt
  rw [BitVec.extractLsb'_toNat, Nat.shiftRight_eq_div_pow]
  exact Nat.mod_eq_of_lt hb

/-- An unpacked packed sample is the nibble of its byte that the column's parity names. -/
theorem unpack4_toNat {b : Byte} (hb : t[4 * r + c / 2]? = some b) :
    (unpack4 t r c).toNat = if c % 2 = 0 then b.toNat % 16 else b.toNat / 16 := by
  rw [unpack4, List.getD_eq_getElem?_getD, hb, Option.getD_some, apply_ite BitVec.toNat, lowNibble_toNat,
    highNibble_toNat]

theorem shiftedBit_toNat (b : Byte) (n : Nat) : ((b >>> n).extractLsb' 0 1).toNat = b.toNat / 2 ^ n % 2 := by
  rw [BitVec.extractLsb'_toNat, BitVec.toNat_ushiftRight, Nat.shiftRight_zero, Nat.shiftRight_eq_div_pow]

/-- Two bits joined to a sample, as a number. -/
theorem planarBits_toNat : ∀ hi lo : BitVec 1,
    ((hi.setWidth 8 <<< 1 ||| lo.setWidth 8 : Byte).setWidth 4 : Sample).toNat = 2 * hi.toNat + lo.toNat := by
  decide

/-- An unpacked planar sample has bit `7 - c` of its row's second byte as high bit and of its first byte as low bit. -/
theorem unpack2_toNat {lo hi : Byte} (hlo : t[2 * r]? = some lo) (hhi : t[2 * r + 1]? = some hi) :
    (unpack2 t r c).toNat = 2 * (hi.toNat / 2 ^ (7 - c) % 2) + lo.toNat / 2 ^ (7 - c) % 2 := by
  rw [unpack2, List.getD_eq_getElem?_getD, List.getD_eq_getElem?_getD, hlo, hhi, Option.getD_some, Option.getD_some,
    and_one_eq, and_one_eq, planarBits_toNat, shiftedBit_toNat, shiftedBit_toNat]

/-- Settles O36: each direction is a lemma about the packed format, byte by byte and nibble by nibble. -/
theorem packedTileRoundTrip : Obligations.PackedTileRoundTrip :=
  ⟨fun _ => pack4_unpack4, fun _ _ _ => unpack4_pack4⟩

/-- Settles O35: each format reads its bits wherever the bytes are present; the example rows are evaluated. -/
theorem unpackReadsTheRightBits : Obligations.UnpackReadsTheRightBits :=
  ⟨fun _ _ _ _ _ _ => unpack4_toNat, fun _ _ _ _ _ _ _ => unpack2_toNat, by decide, by decide⟩

end Sys2Proof.Machine
end

section
/-! The bit-plane views and the planar tile format (42_planar2bpp.md R142, R146 to R153): what TBPL and TPXG.Bn leave
when their checks pass. A cached plane counts as a computed one because of the bank invariant (R151). -/

namespace Sys2Proof.Machine

variable {s : State} {r : Raster} {cfg : Config} {sb : Nat}

/-- Settles O37: each direction is a lemma about the planar format, row byte by row byte and bit by bit. -/
theorem planarTileRoundTrip : Obligations.PlanarTileRoundTrip :=
  ⟨fun _ => pack2_unpack2, fun _ h r c hr hc => unpack2_pack2 (h r c hr hc) hr hc⟩

theorem tbpl_ok (n : Plane) (hr : s.raster sb = some r) (hv : r.variant = .planar2bpp) :
    tbpl n sb s = .next (complete (s.setRaster sb (r.fillPlane n))) := by
  rw [tbpl, withRaster_ok hr, withPlanar_ok hv, finish]

/-- Settles O29: with every check passed, TBPL fills its plane, which is the update the statement writes out. -/
theorem planeCommandFillsTheCache : Obligations.PlaneCommandFillsTheCache := by
  intro sb s r hr hv
  rw [← fillPlane_one, ← fillPlane_two]
  exact ⟨tbpl_ok .one hr hv, tbpl_ok .two hr hv⟩

/-- On a proper raster it makes no difference whether the plane was cached (R151). -/
theorem Raster.Ok.cached_getD_computePlane (h : r.Ok cfg) (n : Plane) :
    (r.cached n).getD (r.computePlane n) = r.computePlane n := by
  cases hc : r.cached n with
  | none => rfl
  | some cells =>
    cases n with
    | one => exact (h.plane_one cells hc).right
    | two => exact (h.plane_two cells hc).right

/-- A cell of the computed plane is the plane's bit of the sample there (R146). -/
theorem gridAt_computePlane (r : Raster) (n : Plane) (x y : Nat) :
    gridAt (r.computePlane n) (8 * r.wt.toNat) x y 0 = (r.sample x y).extractLsb' n.bitIndex 1 := by
  have h0 : (0 : BitVec 1) = (0 : Sample).extractLsb' n.bitIndex 1 := by cases n <;> rfl
  rw [gridAt, Raster.computePlane, h0, List.getD_map, Raster.sample, gridAt]

theorem Raster.Ok.planeBit_fillPlane (h : r.Ok cfg) (n : Plane) (x y : Nat) :
    (r.fillPlane n).planeBit n x y = (r.sample x y).extractLsb' n.bitIndex 1 := by
  rw [Raster.planeBit, fillPlane_cached, Option.getD_some, h.cached_getD_computePlane, fillPlane_wt,
    gridAt_computePlane]

theorem tpxgPlane_ok (n : Plane) (hr : s.raster sb = some r) (hok : r.Ok s.cfg) (hv : r.variant = .planar2bpp)
    (hx : s.arg0.toNat < 8 * r.wt.toNat) (hy : s.arg1.toNat < 8 * r.ht.toNat) :
    tpxgPlane n sb s = .next (complete { s.setRaster sb (r.fillPlane n) with
      result := ((r.sample s.arg0.toNat s.arg1.toNat).extractLsb' n.bitIndex 1).setWidth 32 }) := by
  rw [tpxgPlane, withRaster_ok hr, withPlanar_ok hv, withPixel_ok hx hy, finish, hok.planeBit_fillPlane]

/-- The filled plane is cached in the bank that TPXG.Bn leaves. -/
theorem raster_setRaster_fillPlane (n : Plane) (hr : s.raster sb = some r) :
    ∃ d, (s.setRaster sb (r.fillPlane n)).raster sb = some d ∧ (d.cached n).isSome :=
  ⟨_, raster_setRaster_same _ (raster_lt hr), by rw [fillPlane_cached, Option.isSome_some]⟩

/-- A bit of a sample in a result word, as a number. -/
theorem sampleBit_toNat (v : Sample) (k : Nat) :
    ((v.extractLsb' k 1).setWidth 32 : Word).toNat = v.toNat / 2 ^ k % 2 := by
  rw [BitVec.toNat_setWidth_of_le (by decide), BitVec.extractLsb'_toNat, Nat.shiftRight_eq_div_pow, Nat.pow_one]

/-- Settles O31: RESULT is the plane's bit of the sample, and a planar sample has only the two bits. -/
theorem planeGetReturnsTheSampleBit : Obligations.PlaneGetReturnsTheSampleBit := by
  intro sb s r hr hok hv hx hy
  have hlt : (r.sample s.arg0.toNat s.arg1.toNat).toNat < 4 := by simpa [hv, sampleLimit] using hok.sample_lt _ _
  obtain ⟨d₁, hd₁, hc₁⟩ := raster_setRaster_fillPlane .one hr
  obtain ⟨d₂, hd₂, hc₂⟩ := raster_setRaster_fillPlane .two hr
  refine ⟨⟨_, d₁, tpxgPlane_ok .one hr hok hv hx hy, rfl, rfl, rfl, ?_, hd₁, hc₁⟩,
    ⟨_, d₂, tpxgPlane_ok .two hr hok hv hx hy, rfl, rfl, rfl, ?_, hd₂, hc₂⟩⟩
  · exact (sampleBit_toNat _ 0).trans (by rw [Nat.pow_zero, Nat.div_one])
  · exact (sampleBit_toNat _ 1).trans (by omega)

end Sys2Proof.Machine
end

section
/-! The sub-raster extractions (43_subimage.md R160 to R166): what each leaves when its checks pass, and a frame as a
rectangle. TXRCT and TXFRM build their bank through the same `rectSamples`, so each cell of theirs is read by one lemma. -/

namespace Sys2Proof.Machine

variable {s : State} {r : Raster} {sb db : Nat}

/-- A number that is at most a word's value fits a word. -/
theorem toNat_ofNat_of_le {n : Nat} {w : Word} (h : n ≤ w.toNat) : (BitVec.ofNat 32 n).toNat = n :=
  (BitVec.toNat_ofNat n 32).trans (Nat.mod_eq_of_lt (h.trans_lt w.isLt))

/-! ### What the extractions leave -/

theorem execTxrng_ok (hr : s.raster sb = some r) (hd : db < s.nbanks) (hne : sb ≠ db)
    (hlt : s.arg0.toNat < s.arg1.toNat) (hle : s.arg1.toNat ≤ r.wt.toNat * r.ht.toNat) :
    execTxrng sb db s = .next (complete (s.setRaster db (r.derive (BitVec.ofNat 32 (s.arg1.toNat - s.arg0.toNat)) 1
      (r.rangeSamples s.arg0.toNat (s.arg1.toNat - s.arg0.toNat))))) := by
  rw [execTxrng, withSourceDest_ok hr hd hne]
  dsimp only
  rw [if_neg (Nat.not_le.mpr hlt), if_neg (Nat.not_lt.mpr hle), finish]

theorem execTxrct_ok (hr : s.raster sb = some r) (hd : db < s.nbanks) (hne : sb ≠ db) (hw : 1 ≤ s.arg2.toNat)
    (hh : 1 ≤ s.arg3.toNat) (hx : s.arg0.toNat + s.arg2.toNat ≤ r.wt.toNat)
    (hy : s.arg1.toNat + s.arg3.toNat ≤ r.ht.toNat) :
    execTxrct sb db s = .next (complete (s.setRaster db (r.derive s.arg2 s.arg3
      (r.rectSamples s.arg0.toNat s.arg1.toNat s.arg2.toNat s.arg3.toNat)))) := by
  rw [execTxrct, withSourceDest_ok hr hd hne]
  dsimp only
  rw [if_neg (Nat.ne_of_gt hw), if_neg (Nat.ne_of_gt hh), if_neg (Nat.not_lt.mpr hx), if_neg (Nat.not_lt.mpr hy), finish]

theorem execTxfrm_ok (hr : s.raster sb = some r) (hd : db < s.nbanks) (hne : sb ≠ db) (hw : 1 ≤ s.frameW.toNat)
    (hh : 1 ≤ s.frameH.toNat) (hx : r.wt.toNat % s.frameW.toNat = 0) (hy : r.ht.toNat % s.frameH.toNat = 0)
    (hi : s.arg0.toNat < r.wt.toNat / s.frameW.toNat * (r.ht.toNat / s.frameH.toNat)) :
    execTxfrm sb db s = .next (complete (s.setRaster db (r.derive s.frameW s.frameH
      (r.rectSamples (s.arg0.toNat % (r.wt.toNat / s.frameW.toNat) * s.frameW.toNat)
        (s.arg0.toNat / (r.wt.toNat / s.frameW.toNat) * s.frameH.toNat) s.frameW.toNat s.frameH.toNat)))) := by
  rw [execTxfrm, withSourceDest_ok hr hd hne]
  dsimp only
  rw [if_neg (by omega), if_neg (not_not.mpr hx), if_neg (not_not.mpr hy), if_neg (Nat.not_le.mpr hi), finish]

/-! ### The cells of what they leave (R162, R164) -/

/-- An extracted rectangle is copied by position. -/
theorem gridAt_rectSamples {w h x y i j : Nat} (hi : i < 8 * w) (hj : j < 8 * h) :
    gridAt (r.rectSamples x y w h) (8 * w) i j 0 = r.sample (8 * x + i) (8 * y + j) := by
  rw [Raster.rectSamples, gridAt_gridOf _ 0 hi hj]

theorem length_rectSamples (r : Raster) (x y w h : Nat) : (r.rectSamples x y w h).length = 8 * w * (8 * h) :=
  gridOf_length _ _ _

/-- Tile `k` of an extracted range is the source tile of traversal index `lo + k`. -/
theorem gridAt_rangeSamples {lo n k x y : Nat} (hk : k < n) (hx : x < 8) (hy : y < 8) :
    gridAt (r.rangeSamples lo n) (8 * n) (8 * k + x) y 0 =
      r.sample (8 * (tilePos (lo + k) r.wt.toNat r.ht.toNat r.order).1 + x)
        (8 * (tilePos (lo + k) r.wt.toNat r.ht.toNat r.order).2 + y) := by
  have hdiv : (8 * k + x) / 8 = k ∧ (8 * k + x) % 8 = x := by omega
  rw [Raster.rangeSamples, gridAt_gridOf _ 0 (by omega) hy, hdiv.left, hdiv.right]

theorem length_rangeSamples (r : Raster) (lo n : Nat) : (r.rangeSamples lo n).length = 8 * n * 8 :=
  gridOf_length _ _ _

/-- Settles O26: with every check passed, TXRNG builds the one-row raster of the range. -/
theorem rangeExtractsTiles : Obligations.RangeExtractsTiles := by
  intro sb db s r hr hd hne hlt hle
  have hn : (BitVec.ofNat 32 (s.arg1.toNat - s.arg0.toNat)).toNat = s.arg1.toNat - s.arg0.toNat :=
    toNat_ofNat_of_le (Nat.sub_le _ _)
  have hrun := execTxrng_ok hr hd hne hlt hle
  rw [← hn, BitVec.ofNat_toNat, BitVec.setWidth_eq] at hrun
  exact ⟨_, hrun, rfl, rfl, rfl, rfl, rfl, hn, rfl, length_rangeSamples r _ _,
    fun _ _ _ hk hx hy => gridAt_rangeSamples hk hx hy⟩

/-- Settles O27: with every check passed, TXRCT builds the raster of the rectangle. -/
theorem rectangleExtractsTiles : Obligations.RectangleExtractsTiles := fun _ _ _ _ hr hd hne hw hh hx hy =>
  ⟨_, execTxrct_ok hr hd hne hw hh hx hy, rfl, rfl, rfl, rfl, rfl, rfl, rfl, length_rectSamples _ _ _ _ _,
    fun _ _ hi hj => gridAt_rectSamples hi hj⟩

/-! ### Frames (R165, R166) -/

/-- Settles O28: the index splits into the frame's column and row, and TXFRM builds the rectangle there. -/
theorem frameExtractsTiles : Obligations.FrameExtractsTiles := by
  intro sb db fpr fpc fx fy s r hr hd hne hw hh hwt hht hi hfx hfy
  have hfpr : r.wt.toNat / s.frameW.toNat = fpr := hwt ▸ Nat.mul_div_cancel _ hw
  have hfpc : r.ht.toNat / s.frameH.toNat = fpc := hht ▸ Nat.mul_div_cancel _ hh
  have hcol : s.arg0.toNat % fpr = fx := by rw [hi, Nat.mul_add_mod', Nat.mod_eq_of_lt hfx]
  have hrow : s.arg0.toNat / fpr = fy := by
    rw [hi, Nat.mul_comm, Nat.mul_add_div (by omega), Nat.div_eq_of_lt hfx, Nat.add_zero]
  have hrun := execTxfrm_ok hr hd hne hw hh (hwt ▸ Nat.mul_mod_left _ _) (hht ▸ Nat.mul_mod_left _ _)
    (hfpr.symm ▸ hfpc.symm ▸ hi ▸ cell_lt hfx hfy)
  rw [hfpr, hcol, hrow] at hrun
  exact ⟨_, hrun, rfl, rfl, rfl, rfl, rfl, rfl, rfl, length_rectSamples _ _ _ _ _,
    fun _ _ hx hy => gridAt_rectSamples hx hy⟩

/-- A frame ends within the grid it is counted in. -/
theorem frame_end_le {k n f : Nat} (h : k < n / f) : k * f + f ≤ n :=
  calc k * f + f
    _ = (k + 1) * f := (Nat.succ_mul k f).symm
    _ ≤ n / f * f := Nat.mul_le_mul_right f h
    _ ≤ n := Nat.div_mul_le_self n f

/-- Settles O43: a legal index names a column and a row of the frame grid, so its rectangle ends within the source and
passes every check of TXRCT. -/
theorem frameIsARectangle : Obligations.FrameIsARectangle := by
  intro sb db s t u r hr h herr hu
  obtain ⟨e, i0, i1, -, rfl⟩ | ⟨r', hr', hd, hne, hw, hh, -, -, hi, rfl⟩ := execTxfrm_cases h
  · cases herr
  obtain rfl : r = r' := Option.some.inj (hr.symm.trans hr')
  have hcol : s.arg0.toNat % (r.wt.toNat / s.frameW.toNat) < r.wt.toNat / s.frameW.toNat :=
    Nat.mod_lt _ (Nat.pos_of_mul_pos_right (Nat.zero_lt_of_lt hi))
  have hrow : s.arg0.toNat / (r.wt.toNat / s.frameW.toNat) < r.ht.toNat / s.frameH.toNat := Nat.div_lt_of_lt_mul hi
  have hx := frame_end_le hcol
  have hy := frame_end_le hrow
  have hx0 : u.arg0.toNat = s.arg0.toNat % (r.wt.toNat / s.frameW.toNat) * s.frameW.toNat :=
    hu ▸ toNat_ofNat_of_le (Nat.le_of_add_right_le hx)
  have hy0 : u.arg1.toNat = s.arg0.toNat / (r.wt.toNat / s.frameW.toNat) * s.frameH.toNat :=
    hu ▸ toNat_ofNat_of_le (Nat.le_of_add_right_le hy)
  rw [← hx0] at hx ⊢
  rw [← hy0] at hy ⊢
  subst hu
  exact ⟨hx, hy, execTxrct_ok hr hd hne hw hh hx hy⟩

end Sys2Proof.Machine
end

section
/-! The match search and the greedy loop (44_lzss.md R186 to R197): what `findMatch` returns, the token at each position,
and an input without repeats, which is spelt by its literals. -/

namespace Sys2Proof.Machine

/-! ### The match search -/

/-- A candidate without bytes replaces none (R188, R196). -/
theorem pos_of_replaces {tie : LzTie} {l best : Nat} (h : replaces tie l best = true) : 0 < l := by
  cases tie
  case farthest => exact Nat.zero_lt_of_lt (of_decide_eq_true h)
  case nearest => exact (of_decide_eq_true h).right

/-- `findMatch` returns no match, or a non-empty one that the scan looked at. -/
theorem findMatch_cases (tie : LzTie) (b : List Byte) (p maxLen : Nat) :
    findMatch tie b p maxLen = (0, 0) ∨
      ∃ e, 1 ≤ e ∧ e ≤ min p 4096 ∧ 0 < matchLen b p (min maxLen (b.length - p)) e ∧
        findMatch tie b p maxLen = (matchLen b p (min maxLen (b.length - p)) e, e) :=
  (scan_mem tie b p _ _ (0, 0)).imp_right fun ⟨e, h1, hw, hr, h⟩ => ⟨e, h1, hw, pos_of_replaces hr, h⟩

/-- No displacement in the window agrees on more bytes than the match found (R187). -/
theorem matchLen_le_findMatch (tie : LzTie) (b : List Byte) (maxLen : Nat) {p d : Nat} (h1 : 1 ≤ d)
    (hw : d ≤ min p 4096) : matchLen b p (min maxLen (b.length - p)) d ≤ (findMatch tie b p maxLen).1 :=
  scan_max tie b p _ (0, 0) h1 hw

/-- Settles O45: what is found is a candidate the scan looked at, `mlen` says how far each candidate agrees, and the scan
breaks ties as LZ_TIE says. -/
theorem matchSearchFindsTheLongest : Obligations.MatchSearchFindsTheLongest := by
  intro tie b p maxLen hp
  have hagree {d l : Nat} (hl : l ≤ min maxLen (b.length - p)) :
      l ≤ matchLen b p (min maxLen (b.length - p)) d ↔ bytesAgree b (p - d) p l := le_matchLen hl hp.le
  refine ⟨?_, ?_, ?_, fun d l h1 hw hl ha => ?_⟩
  · obtain h | ⟨e, -, -, -, h⟩ := findMatch_cases tie b p maxLen <;> rw [h]
    · exact Nat.zero_le _
    · exact matchLen_le ..
  · obtain h | ⟨e, -, -, hpos, h⟩ := findMatch_cases tie b p maxLen <;> rw [h]
    · exact fun _ => rfl
    · exact fun h0 => absurd h0 hpos.ne'
  · obtain h | ⟨e, h1, hw, -, h⟩ := findMatch_cases tie b p maxLen <;> rw [h]
    · exact fun h0 => absurd h0 (Nat.lt_irrefl 0)
    · exact fun _ => ⟨h1, hw, (hagree (matchLen_le ..)).mp (Nat.le_refl _)⟩
  · have hle := (hagree hl).mpr ha
    have hmax := matchLen_le_findMatch tie b maxLen h1 hw
    refine ⟨hle.trans hmax, fun heq hpos => ?_⟩
    have hbest := hmax.antisymm (heq.symm.le.trans hle)
    cases tie
    case farthest => exact scan_farthest b p _ (0, 0) h1 hw hbest (hpos.trans_le hle)
    case nearest => exact scan_nearest b p _ (0, 0) h1 hw hbest (hpos.trans_le hle)

/-! ### The greedy loop -/

/-- A match token of a spelling is one the variant can spell. -/
theorem Spells.copy_mem {v : LzVariant} {b : List Byte} {p len disp : Nat} {ts : List Token} (h : Spells v b p ts)
    (hm : .copy len disp ∈ ts) : 3 ≤ len ∧ len ≤ v.maxLen ∧ 1 ≤ disp ∧ disp ≤ 4096 := by
  induction h with
  | done => cases hm
  | literal _ _ ih =>
    cases hm with
    | tail _ hm => exact ih hm
  | copy h3 hmax h1 hw _ _ ih =>
    cases hm with
    | head => exact ⟨h3, hmax, h1, hw.trans (Nat.min_le_right ..)⟩
    | tail _ hm => exact ih hm

/-- Fewer of the agreeing bytes agree. -/
theorem bytesAgree_mono {b : List Byte} {q p l l' : Nat} (hl : l ≤ l') (h : bytesAgree b q p l') : bytesAgree b q p l :=
  ⟨(Nat.add_le_add_left hl p).trans h.left, fun i hi => h.right i (hi.trans_le hl)⟩

/-- No 3 bytes of the input repeat within the window (R197, R209). -/
def NoRepeats (b : List Byte) : Prop := ∀ p d, 1 ≤ d → d ≤ min p 4096 → ¬ bytesAgree b (p - d) p 3

/-- An input without repeats is spelt by its literals only. -/
theorem Spells.eq_literals {v : LzVariant} {b : List Byte} {p : Nat} {ts : List Token} (h : Spells v b p ts)
    (hno : NoRepeats b) : ts = (b.drop p).map .literal := by
  induction h with
  | done => simp
  | literal hx _ ih =>
    obtain ⟨hp, rfl⟩ := List.getElem?_eq_some_iff.mp hx
    rw [ih, List.drop_eq_getElem_cons hp, List.map_cons]
  | copy h3 _ h1 hw ha _ _ => exact absurd (bytesAgree_mono h3 ha) (hno _ _ h1 hw)

theorem tokens_eq_literals (tie : LzTie) (v : LzVariant) {b : List Byte} (hno : NoRepeats b) :
    tokens tie b v.maxLen = b.map .literal :=
  (tokens_spells tie v b).eq_literals hno

/-- Settles O46: the greedy loop from position 0, and what every spelling of the input satisfies. -/
theorem matchLengthFloor : Obligations.MatchLengthFloor := by
  refine ⟨⟨rfl, rfl⟩, fun tie b v => ?_⟩
  obtain ⟨hsum, hgreedy⟩ := tokensFrom_greedy tie b v.maxLen (Nat.zero_le _) (Nat.le_add_left b.length 0)
  simp only [Nat.zero_add] at hsum hgreedy
  exact ⟨hsum, hgreedy, fun _ _ => (tokens_spells tie v b).copy_mem, tokens_eq_literals tie v⟩

end Sys2Proof.Machine
end

section
/-! The bytes of an LZSS stream (44_lzss.md R181 to R184, R198 to R203, R209): the header, the control byte and the match
tokens, each as the reference reader reads it back, and the length of the whole. -/

namespace Sys2Proof.Machine

/-! ### The header (R181) -/

theorem leValue_lengthBytes_three {n : Nat} (h : n ≤ 0xFFFFFF) :
    leValue [lengthByte n 0, lengthByte n 1, lengthByte n 2] = n := by
  simp only [leValue, lengthByte_toNat]
  omega

theorem leValue_lengthBytes_four {n : Nat} (h : n < 2 ^ 32) :
    leValue [lengthByte n 0, lengthByte n 1, lengthByte n 2, lengthByte n 3] = n := by
  simp only [leValue, lengthByte_toNat]
  omega

/-- Settles O48: the header's branch by the length, and the value of its length bytes. -/
theorem headerHoldsTheLength : Obligations.HeaderHoldsTheLength := fun _ _ =>
  ⟨fun h => ⟨_, _, _, if_pos h, leValue_lengthBytes_three h⟩,
    fun hgt hlt => ⟨_, _, _, _, if_neg (Nat.not_le.mpr hgt), leValue_lengthBytes_four hlt⟩⟩

theorem header_length (v : LzVariant) (n : Nat) : (header v n).length = if n ≤ 0xFFFFFF then 4 else 8 := by
  rw [header]
  split <;> rfl

/-! ### The control byte (R183, R184) -/

/-- The flag of a token in the control byte. -/
def Token.isCopy : Token → Bool
  | .literal _ => false
  | .copy _ _ => true

/-- Slot `k` has bit `7 - k` of the control byte. -/
theorem slotBit (k : Nat) {j : Nat} (hj : j < 8) : ((0x80 : Byte) >>> k).getLsbD (7 - j) = decide (k = j) := by
  rw [BitVec.getLsbD_ushiftRight, show (0x80 : Byte) = BitVec.twoPow 8 7 from rfl, BitVec.getLsbD_twoPow]
  simp only [Nat.reduceLT, decide_true, Bool.true_and, decide_eq_decide]
  omega

/-- Bit `7 - j` of the control byte of tokens from slot `k` on is the flag of the token in slot `j`, 0 if there is
none. -/
theorem controlByte_bit (k : Nat) {j : Nat} (ts : List Token) (hj : j < 8) :
    (controlByte k ts).getLsbD (7 - j) = (decide (k ≤ j) && ts[j - k]?.any Token.isCopy) := by
  induction ts generalizing k with
  | nil => simp [controlByte]
  | cons t ts ih =>
    have hslot : (controlByte k (t :: ts)).getLsbD (7 - j) =
        (t.isCopy && decide (k = j) || (controlByte (k + 1) ts).getLsbD (7 - j)) := by
      cases t
      case literal => rfl
      case copy => rw [controlByte, BitVec.getLsbD_or, slotBit k hj]; rfl
    rw [hslot, ih]
    rcases Nat.lt_trichotomy k j with h | rfl | h
    · obtain ⟨i, rfl⟩ := Nat.exists_eq_add_of_lt h
      simp [Nat.add_assoc, show k + (i + 1) - (k + 1) = i by omega]
    · simp
    · simp [h.ne', Nat.not_le.mpr h, show ¬ k + 1 ≤ j by omega]

/-- Settles O49: the group's first token is in slot 0. -/
theorem controlByteFlagsTheMatches : Obligations.ControlByteFlagsTheMatches := by
  intro ts k _ hk
  rw [controlByte_bit 0 ts hk]
  cases ts[k]? with
  | none => rfl
  | some t => cases t <;> rfl

/-! ### Match tokens (R198 to R202) -/

/-- The first byte of the pair that ends every match token: a nibble of the length over bits 11:8 of `disp - 1`. -/
theorem nibbles_lengthDisp (h d : Nat) (hh : h < 16) (hd : d < 4096) :
    highNibble (byteOf (h <<< 4 ||| d >>> 8)) = h ∧ lowNibble (byteOf (h <<< 4 ||| d >>> 8)) = d / 256 := by
  have hd' : d >>> 8 = d / 256 := Nat.shiftRight_eq_div_pow d 8
  have hsum : h <<< 4 ||| d >>> 8 = h * 16 + d / 256 := by rw [hd']; exact shiftLeft_or (by omega : d / 256 < 2 ^ 4)
  rw [hsum, highNibble_byteOf (by omega), lowNibble_byteOf (by omega)]
  omega

/-- The second byte of that pair: bits 7:0 of `disp - 1`. -/
theorem byteOf_and_toNat (d : Nat) : (byteOf (d &&& 0xFF)).toNat = d % 256 := by
  rw [show d &&& 0xFF = d % 256 from Nat.and_two_pow_sub_one_eq_mod d 8, byteOf_toNat (Nat.mod_lt _ (by decide))]

theorem readCopy_tokenA {len disp : Nat} (rest : List Byte) (h3 : 3 ≤ len) (hmax : len ≤ 18) (h1 : 1 ≤ disp)
    (hw : disp ≤ 4096) : readCopy 0x10 (tokenA len disp ++ rest) = some (.copy len disp, rest) := by
  obtain ⟨hhi, hlo⟩ := nibbles_lengthDisp (len - 3) (disp - 1) (by omega) (by omega)
  simp only [tokenA, List.cons_append, List.nil_append, readCopy, hhi, hlo, byteOf_and_toNat, if_true]
  congr 3 <;> omega

theorem readCopy_tokenB1 {len disp : Nat} (rest : List Byte) (h3 : 3 ≤ len) (hmax : len ≤ 0x10) (h1 : 1 ≤ disp)
    (hw : disp ≤ 4096) : readCopy 0x11 (tokenB1 len disp ++ rest) = some (.copy len disp, rest) := by
  obtain ⟨hhi, hlo⟩ := nibbles_lengthDisp (len - 1) (disp - 1) (by omega) (by omega)
  simp only [tokenB1, List.cons_append, List.nil_append, readCopy, hhi, hlo, byteOf_and_toNat]
  rw [if_neg (by decide), if_neg (by omega), if_neg (by omega)]
  congr 3 <;> omega

theorem readCopy_tokenB2 {len disp : Nat} (rest : List Byte) (hmin : 0x11 ≤ len) (hmax : len ≤ 0x110) (h1 : 1 ≤ disp)
    (hw : disp ≤ 4096) : readCopy 0x11 (tokenB2 len disp ++ rest) = some (.copy len disp, rest) := by
  have hand : (len - 0x11) &&& 0xF = (len - 0x11) % 16 := Nat.and_two_pow_sub_one_eq_mod _ 4
  have hshift : (len - 0x11) >>> 4 = (len - 0x11) / 16 := Nat.shiftRight_eq_div_pow _ 4
  obtain ⟨hhi, hlo⟩ := nibbles_lengthDisp ((len - 0x11) % 16) (disp - 1) (by omega) (by omega)
  have hlt : (len - 0x11) / 16 < 16 := by omega
  simp only [tokenB2, hand, hshift, List.cons_append, List.nil_append, readCopy, hhi, hlo, byteOf_and_toNat,
    highNibble_byteOf (hlt.trans (by decide)), lowNibble_byteOf (hlt.trans (by decide))]
  rw [if_neg (by decide), if_pos (by omega)]
  congr 3 <;> omega

theorem readCopy_tokenB3 {len disp : Nat} (rest : List Byte) (hmin : 0x111 ≤ len) (hmax : len ≤ 0x10110)
    (h1 : 1 ≤ disp) (hw : disp ≤ 4096) :
    readCopy 0x11 (tokenB3 len disp ++ rest) = some (.copy len disp, rest) := by
  have hand : (len - 0x111) &&& 0xF = (len - 0x111) % 16 := Nat.and_two_pow_sub_one_eq_mod _ 4
  have hshift : (len - 0x111) >>> 4 = (len - 0x111) / 16 := Nat.shiftRight_eq_div_pow _ 4
  have htop : 0x10 ||| (len - 0x111) >>> 12 = 16 + (len - 0x111) / 4096 := by
    have hdiv : (len - 0x111) >>> 12 = (len - 0x111) / 4096 := Nat.shiftRight_eq_div_pow _ 12
    rw [hdiv]
    exact shiftLeft_or (a := 1) (by omega : (len - 0x111) / 4096 < 2 ^ 4)
  obtain ⟨hhi, hlo⟩ := nibbles_lengthDisp ((len - 0x111) % 16) (disp - 1) (by omega) (by omega)
  have hlt : 16 + (len - 0x111) / 4096 < 256 := by omega
  simp only [tokenB3, hand, hshift, htop, List.cons_append, List.nil_append, readCopy, hhi, hlo, byteOf_and_toNat,
    highNibble_byteOf hlt, lowNibble_byteOf hlt]
  rw [if_neg (by decide), if_neg (by omega), if_pos (by omega)]
  congr 3 <;> omega

theorem readCopy_copyBytes {v : LzVariant} {len disp : Nat} (rest : List Byte) (h3 : 3 ≤ len) (hmax : len ≤ v.maxLen)
    (h1 : 1 ≤ disp) (hw : disp ≤ 4096) :
    readCopy v.tag (copyBytes v len disp ++ rest) = some (.copy len disp, rest) := by
  cases v
  case a => exact readCopy_tokenA rest h3 hmax h1 hw
  case b =>
    rw [copyBytes, tokenB]
    split
    · exact readCopy_tokenB1 rest h3 ‹_› h1 hw
    split
    · exact readCopy_tokenB2 rest (by omega) ‹_› h1 hw
    · exact readCopy_tokenB3 rest (by omega) hmax h1 hw

/-- Settles O47: one lemma per tier says that its bytes are read back. -/
theorem tokenBytesReadBack : Obligations.TokenBytesReadBack := fun _ _ _ rest h3 hmax h1 hw =>
  readCopy_copyBytes rest h3 hmax h1 hw

/-! ### The length of a stream (R209) -/

/-- The header, the bytes of the tokens, and one control byte for every eight tokens. -/
theorem compress_length (tie : LzTie) (v : LzVariant) (b : List Byte) :
    (compress tie v b).length = (if b.length ≤ 0xFFFFFF then 4 else 8) +
      ((tokens tie b v.maxLen).flatMap (tokenBytes v)).length + ((tokens tie b v.maxLen).length + 7) / 8 := by
  rw [compress, List.length_append, header_length, bodyGroups_length v (Nat.le_refl _), Nat.add_assoc]

/-- Literals are their own bytes. -/
theorem flatMap_tokenBytes_literals (v : LzVariant) (b : List Byte) :
    (b.map Token.literal).flatMap (tokenBytes v) = b := by
  rw [List.flatMap_map]
  exact List.flatMap_singleton' b

/-- Settles O52: neither the tokens nor their bytes are more than the input's bytes, and literals are as many. -/
theorem compressedSizeBound : Obligations.CompressedSizeBound := by
  intro tie v b
  obtain ⟨hcount, hbytes⟩ := (tokens_spells tie v b).lengths
  rw [compress_length]
  refine ⟨?_, fun h => ?_, fun hno => ?_⟩
  · split <;> omega
  · rw [if_pos h]
    omega
  · rw [tokens_eq_literals tie v hno, flatMap_tokenBytes_literals, List.length_map]

/-! ### Worked examples -/

/-- Settles O50: the streams and tokens are evaluated for both tie-breaks. -/
theorem workedStreams : Obligations.WorkedStreams := by
  intro tie
  cases tie <;> decide +kernel

end Sys2Proof.Machine
end

section
/-! The reference decompressor reads a compressed stream back (44_lzss.md R212, R213). Along the stream the output is
`b.take p`, and the tokens still to be read spell `b` from position `p` on. -/

namespace Sys2Proof.Machine

variable {v : LzVariant} {b : List Byte} {p : Nat} {t : Token} {ts : List Token}

/-! ### One token -/

/-- The first token of a spelling is read back, appends the bytes it stands for, and leaves a spelling. -/
theorem Spells.cons_step (h : Spells v b p (t :: ts)) :
    p < b.length ∧ (∀ rest, readToken v.tag t.isCopy (tokenBytes v t ++ rest) = some (t, rest)) ∧
      expandToken t (b.take p) = some (b.take (p + t.span)) ∧ Spells v b (p + t.span) ts := by
  cases h with
  | literal hx h =>
    obtain ⟨hp, rfl⟩ := List.getElem?_eq_some_iff.mp hx
    exact ⟨hp, fun _ => rfl, congrArg some (List.take_append_getElem hp), h⟩
  | copy h3 hmax h1 hw ha h =>
    have hp := ha.left
    obtain ⟨hwp, hw4096⟩ := Nat.le_min.mp hw
    exact ⟨by omega, fun rest => readCopy_copyBytes rest h3 hmax h1 hw4096, copyBack_agree h1 hwp ha, h⟩

theorem Spells.nil_pos (h : Spells v b p []) : p = b.length := by
  cases h
  rfl

/-! ### One group -/

/-- After some tokens of a spelling, the others spell the rest. -/
theorem Spells.drop (h : Spells v b p ts) (m : Nat) : Spells v b (p + consumed (ts.take m)) (ts.drop m) := by
  induction m generalizing p ts with
  | zero => simpa using h
  | succ m ih =>
    cases ts with
    | nil => simpa using h
    | cons t ts =>
      obtain ⟨-, -, -, h⟩ := h.cons_step
      simpa [Nat.add_assoc] using ih h

/-- Reading `m` slots reads the next `m` tokens, or all when they are fewer, if the control byte has their flags. -/
theorem readSlots_spells {ctrl : Byte} {m : Nat} (rest : List Byte) (h : Spells v b p ts)
    (hc : ∀ j < m, ∀ t, ts[j]? = some t → ctrl.getLsbD (m - 1 - j) = t.isCopy) :
    readSlots v.tag ctrl b.length m ((ts.take m).flatMap (tokenBytes v) ++ rest) (b.take p) =
      some (rest, b.take (p + consumed (ts.take m))) := by
  induction m generalizing p ts with
  | zero => simp [readSlots]
  | succ m ih =>
    have hlen : (b.take p).length = p := List.length_take_of_le h.le
    rw [readSlots, hlen]
    cases ts with
    | nil =>
      rw [if_neg (Nat.not_lt.mpr h.nil_pos.ge)]
      rfl
    | cons t ts =>
      obtain ⟨hp, hread, hexpand, hnext⟩ := h.cons_step
      have hflag : ctrl.getLsbD m = t.isCopy := hc 0 (Nat.succ_pos m) t rfl
      rw [if_pos hp, List.take_succ_cons, List.flatMap_cons, List.append_assoc, hflag, hread]
      dsimp only
      rw [hexpand, consumed_cons, ← Nat.add_assoc]
      refine ih hnext fun j hj t' ht => ?_
      rw [← hc (j + 1) (Nat.succ_lt_succ hj) t' ht]
      congr 1
      omega

/-- A group of a spelling is read back: its control byte has the flags of its tokens. -/
theorem readSlots_group (rest : List Byte) (h : Spells v b p ts) :
    readSlots v.tag (controlByte 0 (ts.take 8)) b.length 8 ((ts.take 8).flatMap (tokenBytes v) ++ rest) (b.take p) =
      some (rest, b.take (p + consumed (ts.take 8))) := by
  refine readSlots_spells rest h fun j hj t ht => ?_
  rw [controlByte_bit 0 _ hj, Nat.sub_zero, List.getElem?_take_of_lt hj, ht]
  rfl

/-! ### The body and the whole stream -/

/-- Nothing more is read once the output is complete. -/
theorem readGroups_full {tag : Byte} {n : Nat} {out : List Byte} (fuel : Nat) (s : List Byte) (h : n ≤ out.length) :
    readGroups tag n fuel s out = some out := by
  cases fuel <;> simp [readGroups, Nat.not_lt.mpr h]

/-- No tokens spell no more than what is out. -/
theorem readGroups_spells_nil {fuel fuel' : Nat} (h : Spells v b p []) :
    readGroups v.tag b.length fuel' (bodyGroups v fuel []) (b.take p) = some b := by
  rw [h.nil_pos, List.take_length]
  exact readGroups_full _ _ (Nat.le_refl _)

/-- The groups of a spelling give the rest of the input. `fuel` bounds the groups written and `fuel'` those read. -/
theorem readGroups_spells {fuel fuel' : Nat} (h : Spells v b p ts) (hf : ts.length ≤ fuel) (hf' : ts.length ≤ fuel') :
    readGroups v.tag b.length fuel' (bodyGroups v fuel ts) (b.take p) = some b := by
  induction fuel generalizing fuel' p ts with
  | zero =>
    obtain rfl := List.length_eq_zero_iff.mp (Nat.le_zero.mp hf)
    exact readGroups_spells_nil h
  | succ fuel ih =>
    cases ts with
    | nil => exact readGroups_spells_nil h
    | cons t ts =>
      obtain ⟨fuel', rfl⟩ := Nat.exists_eq_add_one_of_ne_zero (Nat.ne_zero_of_lt hf')
      have hp : (b.take p).length < b.length := by
        rw [List.length_take_of_le h.le]
        exact h.cons_step.left
      rw [bodyGroups, groupBytes, List.cons_append, readGroups, if_pos hp]
      rw [readSlots_group _ h]
      have hshort : ((t :: ts).drop 8).length ≤ ts.length := by simp
      exact ih (h.drop 8) (hshort.trans (Nat.le_of_succ_le_succ hf)) (hshort.trans (Nat.le_of_succ_le_succ hf'))

/-- The header is read back; a length of 0 is told from the longer form by the end of the stream. -/
theorem decompress_header {n : Nat} {body : List Byte} (hn : n ≤ 2 ^ 32 - 1) (hbody : n = 0 → body = []) :
    decompress (header v n ++ body) = readGroups v.tag n n body [] := by
  obtain ⟨hshort, hlong⟩ := headerHoldsTheLength v n
  rcases Nat.lt_or_ge 0xFFFFFF n with h | h
  · obtain ⟨a, b, c, d, hh, hl⟩ := hlong h (by omega)
    simp only [hh, List.cons_append, List.nil_append, decompress]
    rw [if_pos ⟨rfl, by simp⟩, hl]
  · obtain ⟨a, b, c, hh, hl⟩ := hshort h
    simp only [hh, List.cons_append, List.nil_append, decompress, hl]
    refine if_neg fun ⟨h0, h8⟩ => ?_
    rw [hbody h0] at h8
    exact absurd h8 (by simp)

/-- Settles O51: the header gives the length, and the groups give the input the tokens spell. -/
theorem compressThenDecompress : Obligations.CompressThenDecompress := by
  intro tie v b hb
  have h := tokens_spells tie v b
  rw [compress, decompress_header hb fun h0 => ?_]
  · exact readGroups_spells h (Nat.le_refl _) h.lengths.left
  · have hnone : tokens tie b v.maxLen = [] := by rw [List.length_eq_zero_iff.mp h0]; rfl
    rw [hnone]
    rfl

end Sys2Proof.Machine
end

section
/-! What LZC's outcome depends on (44_lzss.md R208). -/

namespace Sys2Proof.Machine

variable {s t : State} {v : LzVariant}

/-- An LZC that completes leaves the stream of its input at DST_ADDR and its length in DST_LEN. -/
theorem lzc_completes (h : lzc v s = .next t) (herr : t.err = false) :
    t.dstLen.toNat = (s.compressed v).length ∧
      t.memRead s.dstAddr.toNat (s.compressed v).length = s.compressed v := by
  obtain ⟨e, i0, i1, -, rfl⟩ | ⟨-, -, -, hl, rfl⟩ := lzc_cases h
  · cases herr
  · exact complete_wroteOutput hl

/-- Settles O53: two commands that complete on the same input leave the same stream. -/
theorem compressionDependsOnTheInputOnly : Obligations.CompressionDependsOnTheInputOnly := by
  intro i s s' t t' hi htie hsrc h h' herr herr'
  obtain ⟨v, hv⟩ : ∃ v : LzVariant, (i = .lzcA ∧ v = .a) ∨ (i = .lzcB ∧ v = .b) :=
    hi.elim (fun hi => ⟨.a, .inl ⟨hi, rfl⟩⟩) fun hi => ⟨.b, .inr ⟨hi, rfl⟩⟩
  have hstream : s.compressed v = s'.compressed v := by rw [State.compressed, State.compressed, htie, hsrc]
  obtain ⟨hlen, hread⟩ := lzc_completes ((exec_lzc hv s).symm.trans h) herr
  obtain ⟨hlen', hread'⟩ := lzc_completes ((exec_lzc hv s').symm.trans h') herr'
  rw [← hstream] at hlen' hread'
  rw [hlen, hlen', hread, hread']
  exact ⟨BitVec.eq_of_toNat_eq (hlen.trans hlen'.symm), rfl⟩

end Sys2Proof.Machine
end

section
/-! How a command ends in an error (60_exceptions.md): which check it reports (R220, R221, R232), what it leaves unchanged
(R237), and the interrupt line that signals either end (R233, R234). -/

namespace Sys2Proof.Machine

variable {s : State} {v w : Word} {sb db : Nat}

/-! ### The first failing check is reported (R232) -/

/-- A word that decodes to nothing is accepted and ends in E_ILLEGAL before anything else is checked (R221). -/
theorem runCommand_illegal (s : State) (h : (decode w).toOption = none) :
    runCommand w s = fail .illegal w.toNat 0 (accept w s) := by
  rw [runCommand]
  cases hd : decode w with
  | ok i => rw [hd] at h; cases h
  | error x => rfl

theorem reports_tdec (v : Variant) (c : Traversal) :
    Reports s (tdec v db c s) (buildChecks s v db ++ [rangeInMem s s.srcAddr.toNat s.srcLen.toNat]) :=
  reports_withDest <| reports_withPalette <| reports_withGeometry <| reports_withBuffer <| reports_finish rfl rfl rfl

theorem reports_tnew (v : Variant) (c : Traversal) : Reports s (tnew v db c s) (buildChecks s v db) :=
  reports_withDest <| reports_withPalette <| reports_withGeometry <| reports_finish rfl rfl rfl

/-- The length TENC checks is that of the encoding it would write (40_tile_grid.md R107, R110). -/
theorem reports_execTenc (sb : Nat) (s : State) : Reports s (execTenc sb s) (checks (.tenc sb) s) := by
  refine reports_withRaster (cs := [rangeInMem s s.dstAddr.toNat s.dstCap.toNat]) fun r _ => reports_withBuffer ?_
  show Reports s (emit r.encoded s) _
  rw [← r.encoded_length]
  exact reports_emit

theorem reports_execTxrng (sb db : Nat) (s : State) : Reports s (execTxrng sb db s) (checks (.txrng sb db) s) :=
  reports_withSourceDest fun _ _ => reports_if <| reports_if <| reports_finish rfl rfl rfl

theorem reports_execTxrct (sb db : Nat) (s : State) : Reports s (execTxrct sb db s) (checks (.txrct sb db) s) :=
  reports_withSourceDest fun _ _ =>
    reports_if <| reports_if <| reports_if <| reports_if <| reports_finish rfl rfl rfl

theorem reports_execTxfrm (sb db : Nat) (s : State) : Reports s (execTxfrm sb db s) (checks (.txfrm sb db) s) :=
  reports_withSourceDest fun _ _ =>
    reports_if <| reports_if <| reports_if <| reports_if <| reports_finish rfl rfl rfl

theorem reports_tbpl (n : Plane) :
    Reports s (tbpl n sb s) ([bankExists s sb, bankValid s sb] ++ rasterChecks s sb fun r => [planarOnly r sb]) :=
  reports_withRaster (cs := []) fun _ _ => reports_withPlanar <| reports_finish rfl rfl rfl

theorem reports_execTpxg (sb : Nat) (s : State) : Reports s (execTpxg sb s) (checks (.tpxg sb) s) :=
  reports_withRaster (cs := []) fun _ _ => reports_withPixel <| reports_finish rfl rfl rfl

theorem reports_tpxgPlane (n : Plane) : Reports s (tpxgPlane n sb s)
    ([bankExists s sb, bankValid s sb] ++ rasterChecks s sb fun r => planarOnly r sb :: pixelChecks s r) :=
  reports_withRaster (cs := []) fun _ _ => reports_withPlanar <| reports_withPixel <| reports_finish rfl rfl rfl

theorem reports_execTpxs (db : Nat) (s : State) : Reports s (execTpxs db s) (checks (.tpxs db) s) :=
  reports_withRaster (cs := []) fun _ _ => reports_withPixel <| reports_if <| reports_finish rfl rfl rfl

theorem reports_lzc (v : LzVariant) : Reports s (lzc v s) (lzcChecks s v) :=
  reports_withBuffer <| reports_withBuffer <| reports_if reports_emit

/-- Every command reports the first failing check of its row in R232's table, or completes. -/
theorem exec_reports (i : Instr) (s : State) : Reports s (exec i s) (checks i s) := by
  cases i with
  | tdecP4 db c => exact reports_tdec .packed4bpp c
  | tdecP2 db c => exact reports_tdec .planar2bpp c
  | tenc sb => exact reports_execTenc sb s
  | tnewP4 db c => exact reports_tnew .packed4bpp c
  | tnewP2 db c => exact reports_tnew .planar2bpp c
  | txrng sb db => exact reports_execTxrng sb db s
  | txrct sb db => exact reports_execTxrct sb db s
  | txfrm sb db => exact reports_execTxfrm sb db s
  | tbpl1 sb => exact reports_tbpl .one
  | tbpl2 sb => exact reports_tbpl .two
  | tpxg sb => exact reports_execTpxg sb s
  | tpxgB1 sb => exact reports_tpxgPlane .one
  | tpxgB2 sb => exact reports_tpxgPlane .two
  | tpxs db => exact reports_execTpxs db s
  | lzcA => exact reports_lzc .a
  | lzcB => exact reports_lzc .b

/-- Settles O9: an illegal word runs no command, and every command follows its list of checks. -/
theorem firstFailingCheckIsReported : Obligations.FirstFailingCheckIsReported :=
  ⟨fun _ s hw => ⟨_, runCommand_illegal s hw, rfl, rfl⟩, exec_reports⟩

/-! ### An error changes nothing else (R221, R237) -/

/-- Settles O8: a command that ends with ERR set took an error, which is recorded over the accepted state. -/
theorem failedCommandChangesNothingElse : Obligations.FailedCommandChangesNothingElse := by
  intro s t w rest hb hh hstep herr
  rw [step_cmd hb hh] at hstep
  obtain ⟨e, i0, i1, -, rfl⟩ | ⟨i, u, -, -, rfl⟩ := runCommand_cases hstep
  · rw [hb]
    rfl
  · cases herr

/-- Settles O6: the error of an illegal word, whose information word is the word itself, unsaturated. -/
theorem illegalWordEndsInIllegal : Obligations.IllegalWordEndsInIllegal := by
  intro s w rest hb hh hw
  rw [step_cmd hb hh, runCommand_illegal _ hw, fail, raiseError, saturate_toNat, hb]
  rfl

/-! ### The interrupt line (R233, R234) -/

theorem irq_iff (s : State) : s.irq = true ↔ s.ie = true ∧ (s.done = true ∨ s.err = true) := by
  rw [State.irq, Bool.and_eq_true, Bool.or_eq_true]

/-- Clearing DONE and ERR lowers the line. -/
theorem irq_clearStatus (s : State) (hdone : v.getLsbD 1 = true) (herr : v.getLsbD 2 = true) :
    (clearStatus v s).irq = false := by
  simp [State.irq, clearStatus, hdone, herr]

/-- A write of 0 to IE lowers the line, whether it resets the block or not. -/
theorem irq_writeCtrl (s : State) (hie : v.getLsbD 0 = false) : (writeCtrl v s).irq = false := by
  rw [writeCtrl]
  split
  · rfl
  · rw [State.irq, hie, Bool.false_and]

/-- Settles O54: the line is read off the flags, and a write that clears them is the whole step. -/
theorem interruptLine : Obligations.InterruptLine := by
  refine ⟨fun s => step_idle, irq_iff, fun s v rest hb h => ?_⟩
  obtain ⟨hh, hdone, herr⟩ | ⟨hh, hie⟩ := h
  · exact ⟨_, step_writeStatus hh, irq_clearStatus _ hdone herr⟩
  · exact ⟨_, step_writeReg hb hh (r := .ctrl) rfl, irq_writeCtrl _ hie⟩

end Sys2Proof.Machine
end

section
/-! The reset input: a soft reset over fresh contents of MEM (70_reset_and_hazards.md R260, R262). -/

namespace Sys2Proof.Machine

/-- No register shows a byte of MEM: with any contents of MEM it reads the same. -/
theorem readReg_withMem (s : State) (m : Memory) (n : Nat) (r : Reg) :
    ({ s with mem := m, epoch := n } : State).readReg r = s.readReg r := by
  cases r <;> rfl

theorem hardReset_readReg (s : State) (r : Reg) : (hardReset s).readReg r = 0 :=
  (readReg_withMem (softReset s) [] (s.epoch + 1) r).trans (softReset_readReg s r)

/-- After the reset input no written byte is left: each reads as the free value of the new contents. -/
theorem hardReset_memByte (s : State) (a : Nat) : (hardReset s).memByte a = Config.powerOnByte (s.epoch + 1) a := rfl

/-- Settles O11: the action is a hard reset whether BUSY or not, which clears what a soft reset clears and MEM too. -/
theorem resetInputClearsTheBlock : Obligations.ResetInputClearsTheBlock := by
  intro s rest hh
  have hstep : step s = .next (hardReset { s with host := rest }) := step_act hh
  exact ⟨_, hstep, hardReset_readReg _, softReset_raster _, nbanks_softReset _, rfl, hardReset_memByte _, rfl, rfl⟩

end Sys2Proof.Machine
end
